-- ==== Sys2Proof/Word.lean ====
section
/-! DEFINITION. The word types of the CHIP-8 CORE (spec/00_scope.md R6, R8). All values are unsigned. -/

namespace Sys2Proof

/-- A 4-bit field of an instruction word (R71): a register index `x`, `y`, a row count `n`, or a
sub-opcode. -/
abbrev Nibble := BitVec 4

/-- An 8-bit byte: a memory cell, a general register, an immediate `kk` (R20, R50, R71). -/
abbrev Byte := BitVec 8

/-- A 12-bit immediate address `nnn` (R71). -/
abbrev Addr12 := BitVec 12

/-- A 16-bit word: an instruction word, `I`, `PC`, a stack slot (R22, R23, R24, R70). -/
abbrev Word := BitVec 16

end Sys2Proof
end

