-- ==== Sys2Proof/Syntax.lean ====
section
/-! DEFINITION. The instructions: one constructor per row of spec/opcode_table.json (spec/30_encoding.md
R74), in the table's order. The fields are those of R71: `x`, `y` register indices, `kk` an immediate
byte, `nnn` an immediate address, `n` a row count. -/

namespace Sys2Proof

/-- An instruction of the CHIP-8 base set: the 35 patterns of R74. -/
inductive Instr where
  /-- `00E0` clear the frame buffer (R165). -/
  | cls
  /-- `00EE` return from subroutine (R110). -/
  | ret
  /-- `0nnn` legacy native-routine call: always faults (R111). -/
  | sys (nnn : Addr12)
  /-- `1nnn` jump (R112). -/
  | jp (nnn : Addr12)
  /-- `2nnn` call subroutine (R113). -/
  | call (nnn : Addr12)
  /-- `3xkk` skip if `V[x] == kk` (R115). -/
  | seImm (x : Nibble) (kk : Byte)
  /-- `4xkk` skip if `V[x] != kk` (R116). -/
  | sneImm (x : Nibble) (kk : Byte)
  /-- `5xy0` skip if `V[x] == V[y]` (R117). -/
  | seReg (x y : Nibble)
  /-- `6xkk` load immediate (R130). -/
  | ldImm (x : Nibble) (kk : Byte)
  /-- `7xkk` add immediate, no flag (R131). -/
  | addImm (x : Nibble) (kk : Byte)
  /-- `8xy0` assign (R132). -/
  | ldReg (x y : Nibble)
  /-- `8xy1` bitwise OR (R133). -/
  | orReg (x y : Nibble)
  /-- `8xy2` bitwise AND (R134). -/
  | andReg (x y : Nibble)
  /-- `8xy3` bitwise exclusive OR (R135). -/
  | xorReg (x y : Nibble)
  /-- `8xy4` add with carry out (R136). -/
  | addReg (x y : Nibble)
  /-- `8xy5` subtract (R137). -/
  | subReg (x y : Nibble)
  /-- `8xy6` shift right by one (R138). -/
  | shr (x y : Nibble)
  /-- `8xy7` reverse subtract (R139). -/
  | subn (x y : Nibble)
  /-- `8xyE` shift left by one (R140). -/
  | shl (x y : Nibble)
  /-- `9xy0` skip if `V[x] != V[y]` (R118). -/
  | sneReg (x y : Nibble)
  /-- `Annn` load the address register (R150). -/
  | ldI (nnn : Addr12)
  /-- `Bnnn` jump to `nnn + V0` (R114). -/
  | jpV0 (nnn : Addr12)
  /-- `Cxkk` random byte AND `kk` (R141). -/
  | rnd (x : Nibble) (kk : Byte)
  /-- `Dxyn` draw sprite (R166). -/
  | drw (x y n : Nibble)
  /-- `Ex9E` skip if key `V[x]` is pressed (R175). -/
  | skp (x : Nibble)
  /-- `ExA1` skip if key `V[x]` is not pressed (R176). -/
  | sknp (x : Nibble)
  /-- `Fx07` read the delay timer (R178). -/
  | ldVxDt (x : Nibble)
  /-- `Fx0A` wait for a key (R177). -/
  | ldVxK (x : Nibble)
  /-- `Fx15` set the delay timer (R179). -/
  | ldDtVx (x : Nibble)
  /-- `Fx18` set the sound timer (R180). -/
  | ldStVx (x : Nibble)
  /-- `Fx1E` add register to address register (R151). -/
  | addI (x : Nibble)
  /-- `Fx29` point at font glyph (R152). -/
  | ldF (x : Nibble)
  /-- `Fx33` store binary-coded decimal (R153). -/
  | ldB (x : Nibble)
  /-- `Fx55` store registers `V0..V[x]` (R154). -/
  | ldMemVx (x : Nibble)
  /-- `Fx65` load registers `V0..V[x]` (R155). -/
  | ldVxMem (x : Nibble)
  deriving DecidableEq, Repr

end Sys2Proof
end

