-- ==== Sys2Proof/Decode.lean ====
section
/-! DEFINITION. The decoder (spec/30_encoding.md R70, R71, R78), total on any bytes and rejecting by
name, and after it the encoder, written from the opcode map R74. -/

namespace Sys2Proof

/-- Why bytes are no instruction: the rows of R75 that match no pattern, and a byte list too short to
hold a word. (`0nnn` words are decoded, to `Instr.sys`, which always faults.) -/
inductive Illegal where
  /-- `5xyN`, `N != 0`. -/
  | family5 (n4 : Nibble)
  /-- `8xyN`, `N` in 8, 9, A, B, C, D, F. -/
  | family8 (n4 : Nibble)
  /-- `9xyN`, `N != 0`. -/
  | family9 (n4 : Nibble)
  /-- `ExKK`, `KK` neither 9E nor A1. -/
  | familyE (kk : Byte)
  /-- `FxKK`, `KK` none of 07, 0A, 15, 18, 1E, 29, 33, 55, 65. -/
  | familyF (kk : Byte)
  /-- Fewer than the two bytes of a word (R70). -/
  | truncated
  deriving DecidableEq, Repr

/-- `n1`, bits 15:12: the family (R71). -/
def fieldN1 (w : Word) : Nibble := w.extractLsb' 12 4

/-- `x`, bits 11:8 (R71). -/
def fieldX (w : Word) : Nibble := w.extractLsb' 8 4

/-- `y`, bits 7:4 (R71). -/
def fieldY (w : Word) : Nibble := w.extractLsb' 4 4

/-- `n` or `n4`, bits 3:0 (R71). -/
def fieldN (w : Word) : Nibble := w.extractLsb' 0 4

/-- `kk`, bits 7:0 (R71). -/
def fieldKK (w : Word) : Byte := w.extractLsb' 0 8

/-- `nnn`, bits 11:0 (R71). -/
def fieldNNN (w : Word) : Addr12 := w.extractLsb' 0 12

/-- Big-endian assembly of a word (R56, R70): the byte at the lower address is bits 15:8. -/
def wordOfBytes (hi lo : Byte) : Word := hi ++ lo

/-- `word[15:8]`, the byte stored at the lower address (R70). -/
def highByte (w : Word) : Byte := w.extractLsb' 8 8

/-- `word[7:0]` (R70). -/
def lowByte (w : Word) : Byte := w.extractLsb' 0 8

/-- Family 8, by the last nibble (R78). -/
def decodeAlu (x y n4 : Nibble) : Except Illegal Instr :=
  match n4 with
  | 0x0#4 => .ok (.ldReg x y)
  | 0x1#4 => .ok (.orReg x y)
  | 0x2#4 => .ok (.andReg x y)
  | 0x3#4 => .ok (.xorReg x y)
  | 0x4#4 => .ok (.addReg x y)
  | 0x5#4 => .ok (.subReg x y)
  | 0x6#4 => .ok (.shr x y)
  | 0x7#4 => .ok (.subn x y)
  | 0xE#4 => .ok (.shl x y)
  | _ => .error (.family8 n4)

/-- Family E, by the low byte (R78). -/
def decodeKey (x : Nibble) (kk : Byte) : Except Illegal Instr :=
  match kk with
  | 0x9E#8 => .ok (.skp x)
  | 0xA1#8 => .ok (.sknp x)
  | _ => .error (.familyE kk)

/-- Family F, by the low byte (R78). -/
def decodeMisc (x : Nibble) (kk : Byte) : Except Illegal Instr :=
  match kk with
  | 0x07#8 => .ok (.ldVxDt x)
  | 0x0A#8 => .ok (.ldVxK x)
  | 0x15#8 => .ok (.ldDtVx x)
  | 0x18#8 => .ok (.ldStVx x)
  | 0x1E#8 => .ok (.addI x)
  | 0x29#8 => .ok (.ldF x)
  | 0x33#8 => .ok (.ldB x)
  | 0x55#8 => .ok (.ldMemVx x)
  | 0x65#8 => .ok (.ldVxMem x)
  | _ => .error (.familyF kk)

/-- Family 0: the two `FIXED` words before `0nnn` (R78). -/
def decodeFixed (w : Word) : Instr :=
  if w = 0x00E0#16 then .cls else if w = 0x00EE#16 then .ret else .sys (fieldNNN w)

/-- `decode(word)` of R78: total on all 65,536 words, a function of the word alone. -/
def decodeWord (w : Word) : Except Illegal Instr :=
  match fieldN1 w with
  | 0x0#4 => .ok (decodeFixed w)
  | 0x1#4 => .ok (.jp (fieldNNN w))
  | 0x2#4 => .ok (.call (fieldNNN w))
  | 0x3#4 => .ok (.seImm (fieldX w) (fieldKK w))
  | 0x4#4 => .ok (.sneImm (fieldX w) (fieldKK w))
  | 0x5#4 => if fieldN w = 0#4 then .ok (.seReg (fieldX w) (fieldY w)) else .error (.family5 (fieldN w))
  | 0x6#4 => .ok (.ldImm (fieldX w) (fieldKK w))
  | 0x7#4 => .ok (.addImm (fieldX w) (fieldKK w))
  | 0x8#4 => decodeAlu (fieldX w) (fieldY w) (fieldN w)
  | 0x9#4 => if fieldN w = 0#4 then .ok (.sneReg (fieldX w) (fieldY w)) else .error (.family9 (fieldN w))
  | 0xA#4 => .ok (.ldI (fieldNNN w))
  | 0xB#4 => .ok (.jpV0 (fieldNNN w))
  | 0xC#4 => .ok (.rnd (fieldX w) (fieldKK w))
  | 0xD#4 => .ok (.drw (fieldX w) (fieldY w) (fieldN w))
  | 0xE#4 => decodeKey (fieldX w) (fieldKK w)
  | _ => decodeMisc (fieldX w) (fieldKK w)    -- 0xF

/-- The decoder on bytes as memory holds them, lowest address first (R70), with the bytes after the
instruction. -/
def decode : List Byte → Except Illegal (Instr × List Byte)
  | hi :: lo :: rest =>
    match decodeWord (wordOfBytes hi lo) with
    | .ok i => .ok (i, rest)
    | .error e => .error e
  | _ => .error .truncated

/-- Format `NNN` (R72). -/
def packNNN (family : Nibble) (nnn : Addr12) : Word := family ++ nnn

/-- Formats `XKK` and `XSS` (R72): `kk` an immediate or an 8-bit sub-opcode. -/
def packXKK (family x : Nibble) (kk : Byte) : Word := family ++ x ++ kk

/-- Format `XYN` (R72): `n` a sub-opcode or a row count. -/
def packXYN (family x y n : Nibble) : Word := family ++ x ++ y ++ n

/-- The word of an instruction: the match values of R74 with the fields of R72 filled in. -/
def encode : Instr → Word
  | .cls => 0x00E0#16
  | .ret => 0x00EE#16
  | .sys nnn => packNNN 0x0#4 nnn
  | .jp nnn => packNNN 0x1#4 nnn
  | .call nnn => packNNN 0x2#4 nnn
  | .seImm x kk => packXKK 0x3#4 x kk
  | .sneImm x kk => packXKK 0x4#4 x kk
  | .seReg x y => packXYN 0x5#4 x y 0x0#4
  | .ldImm x kk => packXKK 0x6#4 x kk
  | .addImm x kk => packXKK 0x7#4 x kk
  | .ldReg x y => packXYN 0x8#4 x y 0x0#4
  | .orReg x y => packXYN 0x8#4 x y 0x1#4
  | .andReg x y => packXYN 0x8#4 x y 0x2#4
  | .xorReg x y => packXYN 0x8#4 x y 0x3#4
  | .addReg x y => packXYN 0x8#4 x y 0x4#4
  | .subReg x y => packXYN 0x8#4 x y 0x5#4
  | .shr x y => packXYN 0x8#4 x y 0x6#4
  | .subn x y => packXYN 0x8#4 x y 0x7#4
  | .shl x y => packXYN 0x8#4 x y 0xE#4
  | .sneReg x y => packXYN 0x9#4 x y 0x0#4
  | .ldI nnn => packNNN 0xA#4 nnn
  | .jpV0 nnn => packNNN 0xB#4 nnn
  | .rnd x kk => packXKK 0xC#4 x kk
  | .drw x y n => packXYN 0xD#4 x y n
  | .skp x => packXKK 0xE#4 x 0x9E#8
  | .sknp x => packXKK 0xE#4 x 0xA1#8
  | .ldVxDt x => packXKK 0xF#4 x 0x07#8
  | .ldVxK x => packXKK 0xF#4 x 0x0A#8
  | .ldDtVx x => packXKK 0xF#4 x 0x15#8
  | .ldStVx x => packXKK 0xF#4 x 0x18#8
  | .addI x => packXKK 0xF#4 x 0x1E#8
  | .ldF x => packXKK 0xF#4 x 0x29#8
  | .ldB x => packXKK 0xF#4 x 0x33#8
  | .ldMemVx x => packXKK 0xF#4 x 0x55#8
  | .ldVxMem x => packXKK 0xF#4 x 0x65#8

/-- The two bytes of an instruction in memory order (R70, R79). -/
def encodeBytes (i : Instr) : List Byte := [highByte (encode i), lowByte (encode i)]

/-- The word of an instruction given as the opcode table numbers its bits: bit 0 is the word's least
significant bit, every bit from `nbits` up is 0. An instruction is one word, so no later word is
read. -/
def tableWord (nbits w : Nat) : Word := BitVec.ofNat 16 (w % 2 ^ nbits)

/-- What the decoder reads from an instruction whose bits are `w`, numbered as spec/opcode_table.json
numbers them, laid out as memory holds it (big-endian, R70). -/
def decodeTableWord (nbits w : Nat) : Option Instr :=
  match decode [highByte (tableWord nbits w), lowByte (tableWord nbits w)] with
  | .ok (i, _) => some i
  | .error _ => none

end Sys2Proof
end

