-- ==== Sys2Proof/Config.lean ====
section
/-! DEFINITION. What an implementation fixes (spec/00_scope.md R6) and the one open input of the
CHIP-8 CORE that no State field can hold once and for all: the random byte. The 80 font bytes, which
a test could show wrong, stand in Machine/Memory.lean. -/

namespace Sys2Proof

/-- `MEM_SIZE` (R6, R50): bytes 0x000 to 0xFFF. -/
abbrev Config.memSize : Nat := 4096

/-- `PROG_BASE` (R6, R231): where the program image is loaded and execution starts. -/
abbrev Config.progBase : Nat := 0x200

/-- `MAX_PROG` (R6, R232): the longest program image. -/
abbrev Config.maxProg : Nat := 3584

/-- The byte on the input `rnd` in cycle number `cycle`, where the driver has presented none
(R100, R141, R211, decision D19: any 8-bit value, no law relates successive values). A FREE VALUE:
no body, so nothing can be proved of it. Log entry 1. -/
opaque Config.rndInput (cycle : Nat) : Byte

end Sys2Proof
end

