-- ==== Sys2Proof/Machine/State.lean ====
section
/-! DEFINITION. The state of the CHIP-8 CORE (spec/10_state.md R20 to R35), as plain data, its value
after reset, and the closed reason types of a step. Accessors and everything else a test could show
wrong stand in Memory.lean, FrameBuffer.lean and Ops.lean. -/

namespace Sys2Proof.Machine

/-- `MEM` (R28, R50): the listed (address, byte) pairs. An address not listed holds its reset content
(`Memory.base` in Memory.lean). Canonical form: `Memory.wf` there. -/
abbrev Memory := List Host.Cell

/-- `FB` (R26): `FB[row][col]`, 32 rows of 64 one-bit cells, `true` is "on". -/
abbrev FrameBuffer := Vector (Vector Bool 64) 32

/-- The fault kinds of R190. Their codes are `FaultKind.code` in Ops.lean. -/
inductive FaultKind where
  /-- R191. Raised by an illegal or `0nnn` word, and by `Ex9E`, `ExA1` with `V[x] > 15`. -/
  | unsupportedInstruction
  /-- R192. Raised by `2nnn` with a full stack. -/
  | stackOverflow
  /-- R193. Raised by `00EE` with an empty stack. -/
  | stackUnderflow
  /-- R194. Raised by a fetch, `Dxyn`, `Fx33`, `Fx55`, `Fx65` that address a byte above 0xFFF. -/
  | memoryOutOfRange
  /-- R195. Raised by the load port only, never by a cycle, never held in `FKIND`. -/
  | programTooLarge
  deriving DecidableEq, Repr

/-- The result of `run_cycle` (R99). -/
inductive CycleResult where
  /-- The cycle completed: advanced, skipped, jumped or suspended. -/
  | ok
  /-- The fault record `(FKIND, FWORD, FPC)` (R196). -/
  | fault (kind : BitVec 3) (word : Word) (pc : Word)
  deriving DecidableEq, Repr

/-- Every piece of state the spec gives the machine, and last the three fields of the model's own that
hold the inputs of a cycle (R31: `rnd` and `timer_en` are inputs, not state the engine keeps). -/
structure State where
  /-- `V[0]`..`V[15]`, 8 bits each (R20); `V[15]` is `VF`, the flag output (R21). -/
  v : Vector Byte 16
  /-- `I`, 16 bits, never masked to 12 (R22). -/
  i : Word
  /-- `PC`, 16 bits (R23). -/
  pc : Word
  /-- `SP` (R24): the number of occupied slots, 0 to 12; the 4-bit register never holds 13 to 15. -/
  sp : Fin 13
  /-- `STACK[0..11]`, 16 bits each; a popped slot keeps its value (R24). -/
  stack : Vector Word 12
  /-- `DT`, the delay timer, 8 bits (R25). -/
  dt : Byte
  /-- `ST`, the sound timer, 8 bits (R25). -/
  st : Byte
  /-- `FB` (R26). -/
  fb : FrameBuffer
  /-- `KEYS[0..15]` (R27), `true` is pressed; written by the `set_key` port only. -/
  keys : Vector Bool 16
  /-- `MEM` (R28). -/
  mem : Memory
  /-- `HALT` (R29): a fault was entered and no reset has happened since. -/
  halt : Bool
  /-- `FKIND`, 3 bits (R29, R190): the code of the latched fault, 0 for none. -/
  fkind : BitVec 3
  /-- `FWORD` (R29): the offending instruction word. -/
  fword : Word
  /-- `FPC` (R29): the `PC` of the faulting instruction. -/
  fpc : Word
  /-- `BEEP` (R30): the "beep requested" output. -/
  beep : Bool
  /-- THE MODEL'S OWN. The level on the input `timer_en` (R98), which the driver sets and a cycle reads
  and leaves as it is. Log entry 2. -/
  timerEn : Bool
  /-- THE MODEL'S OWN. The number of cycles run, which indexes the free values of the input `rnd`. Log
  entry 1. -/
  cycle : Nat
  /-- THE MODEL'S OWN. The byte the driver has put on the input `rnd` for the coming cycle, if it is
  given; a cycle uses it up. Log entry 1. -/
  rndIn : Option Byte
  deriving DecidableEq, Repr

/-- The reasons a step could stop the host's run with a fault: NONE. Every fault of this hardware is
taken, as R198 describes: a next state with the fault latch written and `HALT` set, after which every
cycle changes nothing (R91). Nobody raises a `Fault`; that it has no constructor is safe. -/
inductive Fault : Type
  deriving DecidableEq, Repr

/-- The reasons `exec` could refuse an instruction. -/
inductive Refusal where
  /-- Raised by an arm of `exec` whose instruction has no meaning yet: no arm is left so. Safe: nothing
  can be proved of a refused instruction. -/
  | notModelled (mnemonic : String)
  deriving DecidableEq, Repr

/-- The outcome of an instruction or a step. -/
abbrev Result := Host.Outcome State Fault Refusal

/-- The machine after `reset` and before `load` (R35, R230): every register zero but `PC` = 0x0200,
memory as `Memory.base` gives it (zero but for the font), frame buffer dark, keys not pressed, no fault
latched. The last three fields are the model's own: `timer_en` at its reference value 1 (log entry 2),
the cycle counter at 0 and no `rnd` byte presented (log entry 1). -/
def State.reset : State where
  v := Vector.replicate 16 0#8
  i := 0#16
  pc := 0x0200#16
  sp := 0
  stack := Vector.replicate 12 0#16
  dt := 0#8
  st := 0#8
  fb := Vector.replicate 32 (Vector.replicate 64 false)
  keys := Vector.replicate 16 false
  mem := []
  halt := false
  fkind := 0#3
  fword := 0#16
  fpc := 0#16
  beep := false
  timerEn := true
  cycle := 0
  rndIn := none

end Sys2Proof.Machine
end

