-- ==== Sys2Proof/Machine/FrameBuffer.lean ====
section
/-! DEFINITION. The frame buffer's cells and the XOR sprite blit (spec/44_display.md R165 to R168). -/

namespace Sys2Proof.Machine

/-- `FB[row][col]` (R26); outside the 32 by 64 grid there is no cell, and no caller asks. -/
def FrameBuffer.cell (fb : FrameBuffer) (row col : Nat) : Bool :=
  if h : row < 32 ∧ col < 64 then (fb[row]'h.1)[col]'h.2 else false

/-- `FB[row][col] <- b`; no cell outside the grid is written (R166: clipping). -/
def FrameBuffer.setCell (fb : FrameBuffer) (row col : Nat) (b : Bool) : FrameBuffer :=
  if h : row < 32 ∧ col < 64 then fb.set row ((fb[row]'h.1).set col b h.2) h.1 else fb

/-- All 2048 cells off (R165). -/
def FrameBuffer.dark : FrameBuffer := Vector.replicate 32 (Vector.replicate 64 false)

/-- One sprite bit at column `X`, row `Y` (R166): a set bit inside the grid is XORed into its cell and
hits if the cell was on. -/
def drawBit (X Y : Nat) (bit : Bool) (acc : FrameBuffer × Bool) : FrameBuffer × Bool :=
  if bit ∧ X ≤ 63 ∧ Y ≤ 31 then
    (FrameBuffer.setCell acc.1 Y X (FrameBuffer.cell acc.1 Y X ^^ true),
      acc.2 || FrameBuffer.cell acc.1 Y X)
  else acc

/-- Column `c` of a sprite byte is bit `7 - c` (R166, R167, decision D13). -/
def spriteColumn (b : Byte) (c : Nat) : Bool := b.getLsbD (7 - c)

/-- The first `k` columns of one sprite row, at columns `px ..` of row `Y`, in ascending order (R166). -/
def drawColumns (px Y : Nat) (b : Byte) : Nat → FrameBuffer × Bool → FrameBuffer × Bool
  | 0, acc => acc
  | k + 1, acc => drawBit (px + k) Y (spriteColumn b k) (drawColumns px Y b k acc)

/-- The sprite's rows from row `Y` down (R166): 8 columns each, coordinates unbounded. -/
def drawRows (px : Nat) : Nat → List Byte → FrameBuffer × Bool → FrameBuffer × Bool
  | _, [], acc => acc
  | Y, b :: bs, acc => drawRows px (Y + 1) bs (drawColumns px Y b 8 acc)

/-- The blit of R166: the new frame buffer and `hit`. -/
def drawSprite (px py : Nat) (rows : List Byte) (fb : FrameBuffer) : FrameBuffer × Bool :=
  drawRows px py rows (fb, false)

end Sys2Proof.Machine
end

