-- ==== Sys2Proof/Machine/Memory.lean ====
section
/-! DEFINITION. Memory as bytes (spec/20_memory.md R50 to R58): what an unlisted address holds, one
byte read and written, and runs of consecutive bytes. Bounds are checked in Ops.lean (R53, R55). -/

namespace Sys2Proof.Machine

/-- The customary font of R52, the DEFAULT value of the open parameter `FONT_ROM` (decision D14,
general knowledge K1: PRESUMED, log entry 3). Glyph of digit `d` at `5*d .. 5*d+4` (R51). -/
def fontRom : List Byte :=
  [0xF0#8, 0x90#8, 0x90#8, 0x90#8, 0xF0#8,  0x20#8, 0x60#8, 0x20#8, 0x20#8, 0x70#8] ++
  [0xF0#8, 0x10#8, 0xF0#8, 0x80#8, 0xF0#8,  0xF0#8, 0x10#8, 0xF0#8, 0x10#8, 0xF0#8] ++
  [0x90#8, 0x90#8, 0xF0#8, 0x10#8, 0x10#8,  0xF0#8, 0x80#8, 0xF0#8, 0x10#8, 0xF0#8] ++
  [0xF0#8, 0x80#8, 0xF0#8, 0x90#8, 0xF0#8,  0xF0#8, 0x10#8, 0x20#8, 0x40#8, 0x40#8] ++
  [0xF0#8, 0x90#8, 0xF0#8, 0x90#8, 0xF0#8,  0xF0#8, 0x90#8, 0xF0#8, 0x10#8, 0xF0#8] ++
  [0xF0#8, 0x90#8, 0xF0#8, 0x90#8, 0x90#8,  0xE0#8, 0x90#8, 0xE0#8, 0x90#8, 0xE0#8] ++
  [0xF0#8, 0x80#8, 0x80#8, 0x80#8, 0xF0#8,  0xE0#8, 0x90#8, 0x90#8, 0x90#8, 0xE0#8] ++
  [0xF0#8, 0x80#8, 0xF0#8, 0x80#8, 0xF0#8,  0xF0#8, 0x80#8, 0xF0#8, 0x80#8, 0x80#8]

/-- What an unlisted address reads as: its content after reset (R28, R51, R230), the font at 0x000 to
0x04F and zero above. -/
def Memory.base (a : Nat) : Byte := fontRom.getD a 0#8

/-- The byte at address `a` (R50). -/
def Memory.read : Memory → Nat → Byte
  | [], a => Memory.base a
  | c :: m, a => if c.1 = a then c.2 else Memory.read m a

/-- Lists `(a, b)` before the first greater address. -/
def Memory.insert (a : Nat) (b : Byte) : Memory → Memory
  | [] => [(a, b)]
  | c :: m => if a < c.1 then (a, b) :: c :: m else c :: Memory.insert a b m

/-- Removes every entry for address `a`. -/
def Memory.erase (m : Memory) (a : Nat) : Memory := m.filter (fun c => c.1 != a)

/-- Writes byte `b` at address `a` and no other (R58), keeping the canonical form: the value an unlisted
address reads as is not listed. -/
def Memory.write (m : Memory) (a : Nat) (b : Byte) : Memory :=
  if b = Memory.base a then Memory.erase m a else Memory.insert a b (Memory.erase m a)

/-- The canonical form: addresses strictly rising, each inside 0x000 to 0xFFF, and no entry equal to
what an unlisted address reads as. -/
abbrev Memory.wf (m : Memory) : Prop :=
  m.Pairwise (fun c d => c.1 < d.1) ∧ ∀ c ∈ m, c.1 < Config.memSize ∧ c.2 ≠ Memory.base c.1

/-- The `n` bytes at `a, a+1, ..`, lowest address first (R10, R55), without the bounds check. -/
def Memory.readRange (m : Memory) (a : Nat) : Nat → List Byte
  | 0 => []
  | n + 1 => Memory.read m a :: Memory.readRange m (a + 1) n

/-- Stores the bytes at `a, a+1, ..` in ascending order (R10, R55), without the bounds check. -/
def Memory.writeRange (m : Memory) (a : Nat) : List Byte → Memory
  | [] => m
  | b :: bs => Memory.writeRange (Memory.write m a b) (a + 1) bs

end Sys2Proof.Machine
end

