-- ==== Sys2Proof/Machine/Ops.lean ====
section
/-! DEFINITION. The named operations over registers, PC, call stack and memory, and taking a fault
(spec/10_state.md, spec/20_memory.md R53 and R55, spec/40_engine_cycle.md R94, spec/60_exceptions.md
R198). -/

namespace Sys2Proof.Machine

/-- `V[r]` (R9, R20). -/
def State.reg (s : State) (r : Nibble) : Byte := s.v[r.toNat]'r.isLt

/-- `V[r] <- b` (R9, R20). -/
def State.setReg (s : State) (r : Nibble) (b : Byte) : State := { s with v := s.v.set r.toNat b r.isLt }

/-- `I <- w` (R22). -/
def State.setI (s : State) (w : Word) : State := { s with i := w }

/-- `DT <- b` (R25). -/
def State.setDt (s : State) (b : Byte) : State := { s with dt := b }

/-- `ST <- b` (R25). -/
def State.setSt (s : State) (b : Byte) : State := { s with st := b }

/-- `FB <- fb` (R26). -/
def State.setFb (s : State) (fb : FrameBuffer) : State := { s with fb := fb }

/-- `MEM <- m` (R28). -/
def State.setMem (s : State) (m : Memory) : State := { s with mem := m }

/-- Outcome `Advance` (R94): `PC <- (PC + 2) mod 65536`. -/
def State.advance (s : State) : State := { s with pc := s.pc + 2#16 }

/-- Outcome `Skip` (R94): `PC <- (PC + 4) mod 65536`. -/
def State.skip (s : State) : State := { s with pc := s.pc + 4#16 }

/-- Outcome `Jump(a)` (R94): `PC <- a`, unmasked. -/
def State.jump (s : State) (a : Word) : State := { s with pc := a }

/-- Outcome `Suspend` (R94): `PC` unchanged. -/
def State.suspend (s : State) : State := s

/-- Outcome of a skip instruction (R94): `Skip` if the condition holds, else `Advance`. -/
def State.skipIf (s : State) (c : Bool) : State :=
  match c with
  | true => s.skip
  | false => s.advance

/-- `STACK[k]` (R9, R24). -/
def State.slot (s : State) (k : Fin 12) : Word := s.stack[k.val]'k.isLt

/-- The push of R24: needs `SP < 12`, else none; `STACK[SP] <- w; SP <- SP + 1`. -/
def State.push (s : State) (w : Word) : Option State :=
  if h : s.sp.val < 12 then
    some { s with stack := s.stack.set s.sp.val w h, sp := ⟨s.sp.val + 1, Nat.succ_lt_succ h⟩ }
  else none

/-- The pop of R24: needs `SP > 0`, else none; `SP <- SP - 1` and the value of `STACK[SP]`, which keeps
it. -/
def State.pop (s : State) : Option (Word × State) :=
  match s.sp with
  | ⟨0, _⟩ => none
  | ⟨k + 1, h⟩ => some (s.slot ⟨k, Nat.lt_of_succ_lt_succ h⟩, { s with sp := ⟨k, Nat.lt_of_succ_lt h⟩ })

/-- `MEM[a]` (R9, R28). -/
def State.byteAt (s : State) (a : Nat) : Byte := Memory.read s.mem a

/-- `CheckRange(addr, n)` of R55: the `n` bytes at the unbounded address `addr` all lie inside 0x000 to
0xFFF; zero bytes always do (R53). -/
def checkRange (addr n : Nat) : Bool := decide (n = 0 ∨ addr + n - 1 ≤ 0xFFF)

/-- `MemRead(addr, n)` of R55; none where the check fails. -/
def State.memRead (s : State) (addr n : Nat) : Option (List Byte) :=
  if checkRange addr n then some (Memory.readRange s.mem addr n) else none

/-- `MemWrite(addr, n, bytes)` of R55, `n` the number of bytes; none, and nothing written, where the
check fails. -/
def State.memWrite (s : State) (addr : Nat) (bytes : List Byte) : Option State :=
  if checkRange addr bytes.length then some (s.setMem (Memory.writeRange s.mem addr bytes)) else none

/-- The codes of R190 (decision D12), as `FKIND` holds them. -/
def FaultKind.code : FaultKind → BitVec 3
  | .unsupportedInstruction => 1#3
  | .stackOverflow => 2#3
  | .stackUnderflow => 3#3
  | .memoryOutOfRange => 4#3
  | .programTooLarge => 5#3

/-- TAKING A FAULT: `enter_fault(kind, word, pc)` of R198. The latch is written, `HALT` set and `BEEP`
cleared; nothing else changes, `PC` included, and control goes nowhere. THERE IS NO RETURN (R200): no
instruction and no input but `reset` clears `HALT` (`State.resetPort` in HostPorts.lean). -/
def State.enterFault (s : State) (kind : FaultKind) (word pc : Word) : State :=
  { s with fkind := kind.code, fword := word, fpc := pc, halt := true, beep := false }

/-- `raise <kind>(word, pc)` of R10 by the instruction `i` at `PC`: `FWORD` is its word, `FPC` its
address (R196). -/
def State.raise (s : State) (kind : FaultKind) (i : Instr) : State := s.enterFault kind (encode i) s.pc

end Sys2Proof.Machine
end

