-- ==== Sys2Proof/Machine/Cycle.lean ====
section
/-! DEFINITION. What a cycle does around its instruction (spec/40_engine_cycle.md R90 to R101): fetch
and decode before it, the timer phase (spec/60_exceptions.md R206, R207) and the taking-up of the
inputs after it. -/

namespace Sys2Proof.Machine

/-- Fetch (R92): the big-endian word at `PC`, none where `PC > 0xFFE`. -/
def State.fetchWord (s : State) : Option Word :=
  if s.pc.toNat > 0xFFE then none
  else some (wordOfBytes (s.byteAt s.pc.toNat) (s.byteAt (s.pc.toNat + 1)))

/-- Fetch and decode (R92, R93): the instruction, or the fault kind and `FWORD` of the cycle: a fetch
fault records 0x0000 (decision D11), an illegal word itself (R191). -/
def State.fetchInstr (s : State) : Except (FaultKind × Word) Instr :=
  match s.fetchWord with
  | none => .error (.memoryOutOfRange, 0x0000#16)
  | some w =>
    match decodeWord w with
    | .error _ => .error (.unsupportedInstruction, w)
    | .ok i => .ok i

/-- One decrement of a timer (R206): by 1 when greater than 0. -/
def countDown (b : Byte) : Byte := if b = 0#8 then 0#8 else b - 1#8

/-- The timer phase of R206: both timers count down, `BEEP` says whether `ST` was above 0 (R207). -/
def State.timerPhase (s : State) : State :=
  { s with dt := countDown s.dt, st := countDown s.st, beep := s.st != 0#8 }

/-- After the instruction phase of a cycle that did not fault (R90, R98): the timer phase where
`timer_en` is 1, else `BEEP <- 0`. -/
def State.timerStep (s : State) : State := if s.timerEn then s.timerPhase else { s with beep := false }

/-- The cycle's inputs are used up (R100): the next cycle has a `rnd` of its own. Log entry 1. -/
def State.nextInputs (s : State) : State := { s with cycle := s.cycle + 1, rndIn := none }

/-- The end of a cycle that was not halted at its start (R90): no timer phase in a cycle that faulted. -/
def State.finishCycle (s : State) : State := (if s.halt then s else s.timerStep).nextInputs

/-- The result of the cycle that left this state (R91, R99): a set `HALT` is the fault just entered or
still latched. -/
def State.result (s : State) : CycleResult :=
  if s.halt then .fault s.fkind s.fword s.fpc else .ok

end Sys2Proof.Machine
end

