-- ==== Sys2Proof/Machine/Flags.lean ====
section
/-! DEFINITION. Every flag computation (spec/10_state.md R21, spec/42_alu.md R142) and the order in
which flag and result are written (spec/40_engine_cycle.md R97). -/

namespace Sys2Proof.Machine

/-- `VF` (R9): `V[15]`. -/
abbrev vf : Nibble := 0xF#4

/-- A flag value is 0x00 or 0x01 (R21). -/
def flagByte (b : Bool) : Byte := if b then 1#8 else 0#8

/-- Carry out of an 8-bit add (R136): the exact sum exceeds 255. -/
def carryOut (a b : Byte) : Bool := decide (a.toNat + b.toNat > 255)

/-- NOT borrow of `a - b` (R137, R139): `a >= b`. -/
def noBorrow (a b : Byte) : Bool := decide (a.toNat ≥ b.toNat)

/-- Bit 0, the flag of a shift right (R138). -/
def lowBit (a : Byte) : Bool := a.getLsbD 0

/-- Bit 7, the flag of a shift left (R140). -/
def highBit (a : Byte) : Bool := a.getLsbD 7

/-- Writes the flag to `VF` and then the result to `V[x]` (R97, decision D2): with `x = 15` the result
survives. -/
def State.flagThenResult (s : State) (flag : Bool) (x : Nibble) (result : Byte) : State :=
  (s.setReg vf (flagByte flag)).setReg x result

end Sys2Proof.Machine
end

