-- ==== Sys2Proof/Machine/Operands.lean ====
section
/-! DEFINITION. Every operand form: immediates (spec/30_encoding.md R73), addresses (spec/20_memory.md
R53, spec/43_index_memory.md R156), register blocks, decimal digits, keys and the random input. -/

namespace Sys2Proof.Machine

/-- `zext_16(nnn)` (R8, R73). -/
def zextAddr (nnn : Addr12) : Word := nnn.setWidth 16

/-- `zext_16(b)` (R8). -/
def zextByte (b : Byte) : Word := b.setWidth 16

/-- `zext_16(x)` of a register index used as a count (R73). -/
def zextNibble (x : Nibble) : Word := x.setWidth 16

/-- `zext_8(k)` of a key index (R177). -/
def keyByte (k : Nibble) : Byte := k.setWidth 8

/-- The base of every data access: the 16-bit `I` as an unbounded integer (R53, R156). -/
def State.dataAddr (s : State) : Nat := s.i.toNat

/-- `V[0], V[1], .., V[x]` (R154). -/
def State.regBlock (s : State) (x : Nibble) : List Byte := s.v.toList.take (x.toNat + 1)

/-- `V[k] <- bytes[k]` for each byte, from index `k` up (R155). -/
def State.setRegsFrom (s : State) (k : Nat) : List Byte → State
  | [] => s
  | b :: bs => State.setRegsFrom (s.setReg (BitVec.ofNat 4 k) b) (k + 1) bs

/-- `(I + x + 1) mod 65536` (R22, R154, R155). -/
def State.indexAfterBlock (s : State) (x : Nibble) : Word := s.i + (zextNibble x + 1#16)

/-- The three decimal digits of a byte, hundreds first (R56, R153). -/
def decimalDigits (a : Byte) : List Byte := [a / 100#8, (a / 10#8) % 10#8, a % 10#8]

/-- `V[x] * 5`, the whole byte (R152). -/
def glyphAddr (a : Byte) : Word := zextByte a * 5#16

/-- A byte used as a key index: none above 15 (R181). -/
def keyIndex (a : Byte) : Option Nibble := if a.toNat ≤ 15 then some (a.setWidth 4) else none

/-- `KEYS[k]` (R9, R27). -/
def State.key (s : State) (k : Nibble) : Bool := s.keys[k.toNat]'k.isLt

/-- The smallest `k` with `KEYS[k] = 1`, if any key is pressed (R177, decision D7). -/
def State.lowestKey (s : State) : Option Nibble := (s.keys.toList.findIdx? id).map (BitVec.ofNat 4)

/-- The value of the input `rnd` in this cycle (R100): the byte the driver presents, else a free value. -/
def State.rnd (s : State) : Byte := s.rndIn.getD (Config.rndInput s.cycle)

end Sys2Proof.Machine
end

