-- ==== Sys2Proof/Machine/Alu.lean ====
section
/-! DEFINITION. The register load, ALU and random instructions (spec/42_alu.md R130 to R143). Operands
are read from `s`, the state at the start of the cycle (R96). -/

namespace Sys2Proof.Machine

/-- `6xkk` (R130). -/
def execLdImm (x : Nibble) (kk : Byte) (s : State) : Result := .next (s.setReg x kk).advance

/-- `7xkk` (R131): no flag. -/
def execAddImm (x : Nibble) (kk : Byte) (s : State) : Result := .next (s.setReg x (s.reg x + kk)).advance

/-- `8xy0` (R132). -/
def execLdReg (x y : Nibble) (s : State) : Result := .next (s.setReg x (s.reg y)).advance

/-- `8xy1` (R133): no flag. -/
def execOrReg (x y : Nibble) (s : State) : Result := .next (s.setReg x (s.reg x ||| s.reg y)).advance

/-- `8xy2` (R134): no flag. -/
def execAndReg (x y : Nibble) (s : State) : Result := .next (s.setReg x (s.reg x &&& s.reg y)).advance

/-- `8xy3` (R135): no flag. -/
def execXorReg (x y : Nibble) (s : State) : Result := .next (s.setReg x (s.reg x ^^^ s.reg y)).advance

/-- `8xy4` (R136): `VF` = carry. -/
def execAddReg (x y : Nibble) (s : State) : Result :=
  .next (s.flagThenResult (carryOut (s.reg x) (s.reg y)) x (s.reg x + s.reg y)).advance

/-- `8xy5` (R137): `VF` = no borrow. -/
def execSubReg (x y : Nibble) (s : State) : Result :=
  .next (s.flagThenResult (noBorrow (s.reg x) (s.reg y)) x (s.reg x - s.reg y)).advance

/-- `8xy6` (R138, 90_conflicts.md C1): the value from `V[y]`, the flag from `V[x]`. -/
def execShr (x y : Nibble) (s : State) : Result :=
  .next (s.flagThenResult (lowBit (s.reg x)) x (s.reg y >>> 1)).advance

/-- `8xy7` (R139): `VF` = no borrow of `V[y] - V[x]`. -/
def execSubn (x y : Nibble) (s : State) : Result :=
  .next (s.flagThenResult (noBorrow (s.reg y) (s.reg x)) x (s.reg y - s.reg x)).advance

/-- `8xyE` (R140, 90_conflicts.md C1): the value from `V[y]`, the flag from `V[x]`. -/
def execShl (x y : Nibble) (s : State) : Result :=
  .next (s.flagThenResult (highBit (s.reg x)) x (s.reg y <<< 1)).advance

/-- `Cxkk` (R141): `rnd & kk`. -/
def execRnd (x : Nibble) (kk : Byte) (s : State) : Result := .next (s.setReg x (s.rnd &&& kk)).advance

end Sys2Proof.Machine
end

