-- ==== Sys2Proof/Machine/ControlFlow.lean ====
section
/-! DEFINITION. The control-flow instructions (spec/41_control_flow.md R110 to R119). -/

namespace Sys2Proof.Machine

/-- `00EE` (R110). -/
def execRet (s : State) : Result :=
  match s.pop with
  | none => .next (s.raise .stackUnderflow .ret)
  | some (a, t) => .next (t.jump a)

/-- `0nnn` (R111): always faults. -/
def execSys (nnn : Addr12) (s : State) : Result := .next (s.raise .unsupportedInstruction (.sys nnn))

/-- `1nnn` (R112). -/
def execJp (nnn : Addr12) (s : State) : Result := .next (s.jump (zextAddr nnn))

/-- `2nnn` (R113). -/
def execCall (nnn : Addr12) (s : State) : Result :=
  match s.push (s.pc + 2#16) with
  | none => .next (s.raise .stackOverflow (.call nnn))
  | some t => .next (t.jump (zextAddr nnn))

/-- `Bnnn` (R114): the sum is not masked. -/
def execJpV0 (nnn : Addr12) (s : State) : Result :=
  .next (s.jump (zextAddr nnn + zextByte (s.reg 0#4)))

/-- `3xkk` (R115). -/
def execSeImm (x : Nibble) (kk : Byte) (s : State) : Result := .next (s.skipIf (s.reg x == kk))

/-- `4xkk` (R116). -/
def execSneImm (x : Nibble) (kk : Byte) (s : State) : Result := .next (s.skipIf (s.reg x != kk))

/-- `5xy0` (R117). -/
def execSeReg (x y : Nibble) (s : State) : Result := .next (s.skipIf (s.reg x == s.reg y))

/-- `9xy0` (R118). -/
def execSneReg (x y : Nibble) (s : State) : Result := .next (s.skipIf (s.reg x != s.reg y))

end Sys2Proof.Machine
end

