-- ==== Sys2Proof/Machine/Display.lean ====
section
/-! DEFINITION. The frame-buffer instructions (spec/44_display.md R165, R166). -/

namespace Sys2Proof.Machine

/-- `00E0` (R165). -/
def execCls (s : State) : Result := .next (s.setFb FrameBuffer.dark).advance

/-- `Dxyn` (R166): column `V[x]`, row `V[y]`, `n` sprite rows from `I`; `VF` = collision. -/
def execDrw (x y n : Nibble) (s : State) : Result :=
  match s.memRead s.dataAddr n.toNat with
  | none => .next (s.raise .memoryOutOfRange (.drw x y n))
  | some rows =>
    let drawn := drawSprite (s.reg x).toNat (s.reg y).toNat rows s.fb
    .next ((s.setFb drawn.1).setReg vf (flagByte drawn.2)).advance

end Sys2Proof.Machine
end

