-- ==== Sys2Proof/Machine/IndexMemory.lean ====
section
/-! DEFINITION. The address-register and memory instructions (spec/43_index_memory.md R150 to R156).
The whole range is checked before anything is written (R53, R95). -/

namespace Sys2Proof.Machine

/-- `Annn` (R150). -/
def execLdI (nnn : Addr12) (s : State) : Result := .next (s.setI (zextAddr nnn)).advance

/-- `Fx1E` (R151, decision D3): modulo 65536, no flag, no fault. -/
def execAddI (x : Nibble) (s : State) : Result := .next (s.setI (s.i + zextByte (s.reg x))).advance

/-- `Fx29` (R152). -/
def execLdF (x : Nibble) (s : State) : Result := .next (s.setI (glyphAddr (s.reg x))).advance

/-- `Fx33` (R153). -/
def execLdB (x : Nibble) (s : State) : Result :=
  match s.memWrite s.dataAddr (decimalDigits (s.reg x)) with
  | none => .next (s.raise .memoryOutOfRange (.ldB x))
  | some t => .next t.advance

/-- `Fx55` (R154). -/
def execLdMemVx (x : Nibble) (s : State) : Result :=
  match s.memWrite s.dataAddr (s.regBlock x) with
  | none => .next (s.raise .memoryOutOfRange (.ldMemVx x))
  | some t => .next (t.setI (s.indexAfterBlock x)).advance

/-- `Fx65` (R155). -/
def execLdVxMem (x : Nibble) (s : State) : Result :=
  match s.memRead s.dataAddr (x.toNat + 1) with
  | none => .next (s.raise .memoryOutOfRange (.ldVxMem x))
  | some bytes => .next ((s.setRegsFrom 0 bytes).setI (s.indexAfterBlock x)).advance

end Sys2Proof.Machine
end

