-- ==== Sys2Proof/Machine/KeypadTimers.lean ====
section
/-! DEFINITION. The keypad and timer instructions (spec/45_keypad_timers.md R175 to R181). The timer
phase of the same cycle comes after them (Cycle.lean). -/

namespace Sys2Proof.Machine

/-- `Ex9E` (R175, R181). -/
def execSkp (x : Nibble) (s : State) : Result :=
  match keyIndex (s.reg x) with
  | none => .next (s.raise .unsupportedInstruction (.skp x))
  | some k => .next (s.skipIf (s.key k))

/-- `ExA1` (R176, R181). -/
def execSknp (x : Nibble) (s : State) : Result :=
  match keyIndex (s.reg x) with
  | none => .next (s.raise .unsupportedInstruction (.sknp x))
  | some k => .next (s.skipIf (!s.key k))

/-- `Fx0A` (R177): one check; suspends while no key is pressed. -/
def execLdVxK (x : Nibble) (s : State) : Result :=
  match s.lowestKey with
  | none => .next s.suspend
  | some k => .next (s.setReg x (keyByte k)).advance

/-- `Fx07` (R178): the value before this cycle's timer phase. -/
def execLdVxDt (x : Nibble) (s : State) : Result := .next (s.setReg x s.dt).advance

/-- `Fx15` (R179). -/
def execLdDtVx (x : Nibble) (s : State) : Result := .next (s.setDt (s.reg x)).advance

/-- `Fx18` (R180). -/
def execLdStVx (x : Nibble) (s : State) : Result := .next (s.setSt (s.reg x)).advance

end Sys2Proof.Machine
end

