-- ==== Sys2Proof/Machine/Step.lean ====
section
/-! DEFINITION. One engine cycle, `run_cycle` (spec/40_engine_cycle.md R90), and placing an instruction
where the next cycle fetches. -/

namespace Sys2Proof.Machine

/-- `run_cycle` (R90) with the inputs that State holds: the halted gate (R91), fetch and decode (R92,
R93), the instruction or the taking of the fetch's or decoder's fault (R198), the timer phase (R98). -/
def step (s : State) : Host.Outcome State Fault Refusal :=
  if s.halt then .next s
  else
    match s.fetchInstr with
    | .error f => .next (s.enterFault f.1 f.2 s.pc).finishCycle
    | .ok i =>
      match exec i s with
      | .next t => .next t.finishCycle
      | .fault r => .fault r
      | .refused r => .refused r

/-- `s` with the instruction of bits `w`, numbered as spec/opcode_table.json numbers them, stored at
`PC`, `PC+1`, where `step` fetches (R70, R92); `s` itself where `PC > 0xFFE`, which no word can be
fetched from. Log entry 4. -/
def State.withFetchWord (s : State) (nbits w : Nat) : State :=
  if s.pc.toNat > 0xFFE then s
  else s.setMem (Memory.writeRange s.mem s.pc.toNat
    [highByte (tableWord nbits w), lowByte (tableWord nbits w)])

end Sys2Proof.Machine
end

