-- ==== Sys2Proof/Machine/HostPorts.lean ====
section
/-! DEFINITION. The moves of the external agents, all between cycles (spec/20_memory.md R62): `reset`
(spec/70_reset_and_hazards.md R230), `load` (R232, R233), `set_key` (spec/60_exceptions.md R209), and
`run_cycle` with its two inputs (spec/40_engine_cycle.md R90). The frame buffer and `BEEP` are read as
the fields `fb` and `beep` (R207, R210). -/

namespace Sys2Proof.Machine

/-- The `reset` input (R230) with the font `font` (R52: `FONT_ROM` is a parameter), at any time between
cycles: nothing survives it but the inputs, which are not the engine's (R31). -/
def State.resetPort (s : State) (font : Vector Byte 80) : State :=
  { State.reset with
    mem := Memory.writeRange State.reset.mem 0 font.toList
    timerEn := s.timerEn
    cycle := s.cycle }

/-- The `load` port (R232): copies the image to 0x200; an image over 3584 bytes is `ProgramTooLarge` and
writes nothing (R233). -/
def State.load (s : State) (image : List Byte) : Except FaultKind State :=
  if image.length > Config.maxProg then .error .programTooLarge
  else .ok (s.setMem (Memory.writeRange s.mem Config.progBase image))

/-- The `set_key` port (R209): `KEYS[index] <- pressed`, halted or not. -/
def State.setKey (s : State) (index : Nibble) (pressed : Bool) : State :=
  { s with keys := s.keys.set index.toNat pressed index.isLt }

/-- The driver puts a byte on `rnd` and a level on `timer_en` for the coming cycle (R90, R100). -/
def State.withInputs (s : State) (rnd : Byte) (timerEn : Bool) : State :=
  { s with rndIn := some rnd, timerEn := timerEn }

/-- `run_cycle(rnd, timer_en)` (R90). -/
def runCycle (rnd : Byte) (timerEn : Bool) (s : State) : Result := step (s.withInputs rnd timerEn)

end Sys2Proof.Machine
end

