-- ==== Sys2Proof/Safety.lean ====
section
/-! DEFINITION. The terms in which claims are made: what a frame keeps, when a cycle faults (written from
spec/30_encoding.md R75 and spec/60_exceptions.md R190 to R197, not from the decoder or the meanings),
the invariant of the machine, its reachable states, and what counts as a safe state. -/

namespace Sys2Proof

/-- The `match`/`mask` pair (in this order) of an instruction's row in the opcode map R74. -/
def Instr.tableRow : Instr → Word × Word
  | .cls => (0x00E0#16, 0xFFFF#16)
  | .ret => (0x00EE#16, 0xFFFF#16)
  | .sys _ => (0x0000#16, 0xF000#16)
  | .jp _ => (0x1000#16, 0xF000#16)
  | .call _ => (0x2000#16, 0xF000#16)
  | .seImm _ _ => (0x3000#16, 0xF000#16)
  | .sneImm _ _ => (0x4000#16, 0xF000#16)
  | .seReg _ _ => (0x5000#16, 0xF00F#16)
  | .ldImm _ _ => (0x6000#16, 0xF000#16)
  | .addImm _ _ => (0x7000#16, 0xF000#16)
  | .ldReg _ _ => (0x8000#16, 0xF00F#16)
  | .orReg _ _ => (0x8001#16, 0xF00F#16)
  | .andReg _ _ => (0x8002#16, 0xF00F#16)
  | .xorReg _ _ => (0x8003#16, 0xF00F#16)
  | .addReg _ _ => (0x8004#16, 0xF00F#16)
  | .subReg _ _ => (0x8005#16, 0xF00F#16)
  | .shr _ _ => (0x8006#16, 0xF00F#16)
  | .subn _ _ => (0x8007#16, 0xF00F#16)
  | .shl _ _ => (0x800E#16, 0xF00F#16)
  | .sneReg _ _ => (0x9000#16, 0xF00F#16)
  | .ldI _ => (0xA000#16, 0xF000#16)
  | .jpV0 _ => (0xB000#16, 0xF000#16)
  | .rnd _ _ => (0xC000#16, 0xF000#16)
  | .drw _ _ _ => (0xD000#16, 0xF000#16)
  | .skp _ => (0xE09E#16, 0xF0FF#16)
  | .sknp _ => (0xE0A1#16, 0xF0FF#16)
  | .ldVxDt _ => (0xF007#16, 0xF0FF#16)
  | .ldVxK _ => (0xF00A#16, 0xF0FF#16)
  | .ldDtVx _ => (0xF015#16, 0xF0FF#16)
  | .ldStVx _ => (0xF018#16, 0xF0FF#16)
  | .addI _ => (0xF01E#16, 0xF0FF#16)
  | .ldF _ => (0xF029#16, 0xF0FF#16)
  | .ldB _ => (0xF033#16, 0xF0FF#16)
  | .ldMemVx _ => (0xF055#16, 0xF0FF#16)
  | .ldVxMem _ => (0xF065#16, 0xF0FF#16)

end Sys2Proof

namespace Sys2Proof.Machine

/-- Every byte of memory reads as before. -/
def KeepsMem (s t : State) : Prop := ∀ a, t.byteAt a = s.byteAt a

/-- Every byte of memory outside the `n` bytes at `a` reads as before. -/
def KeepsMemOutside (a n : Nat) (s t : State) : Prop := ∀ b, ¬(a ≤ b ∧ b < a + n) → t.byteAt b = s.byteAt b

/-- Every general register is unchanged but the listed ones. -/
def KeepsRegsBut (rs : List Nibble) (s t : State) : Prop := ∀ r, r ∉ rs → t.reg r = s.reg r

/-- `I` is unchanged. -/
def KeepsIndex (s t : State) : Prop := t.i = s.i

/-- `SP` and every slot of `STACK` are unchanged. -/
def KeepsStack (s t : State) : Prop := t.sp = s.sp ∧ t.stack = s.stack

/-- `DT` and `ST` are unchanged. -/
def KeepsTimers (s t : State) : Prop := t.dt = s.dt ∧ t.st = s.st

/-- Every cell of `FB` is unchanged. -/
def KeepsScreen (s t : State) : Prop := t.fb = s.fb

/-- `HALT`, `FKIND`, `FWORD`, `FPC` and `BEEP` are unchanged. -/
def KeepsLatch (s t : State) : Prop :=
  t.halt = s.halt ∧ t.fkind = s.fkind ∧ t.fword = s.fword ∧ t.fpc = s.fpc ∧ t.beep = s.beep

/-- `KEYS` and the inputs are unchanged. -/
def KeepsInputs (s t : State) : Prop :=
  t.keys = s.keys ∧ t.timerEn = s.timerEn ∧ t.cycle = s.cycle ∧ t.rndIn = s.rndIn

/-- Nothing but `PC` and the listed general registers may have changed. -/
def OnlyRegs (rs : List Nibble) (s t : State) : Prop :=
  KeepsRegsBut rs s t ∧ KeepsMem s t ∧ KeepsIndex s t ∧ KeepsStack s t ∧ KeepsTimers s t ∧
    KeepsScreen s t ∧ KeepsLatch s t ∧ KeepsInputs s t

/-- `t` is `s` with the fault `(kind, word, pc)` taken and nothing else changed (R198, R199): the latch
holds the record, `HALT` is set and `BEEP` cleared, all else is exactly as before (decisions D9, D10,
D12). The inputs that State holds are the model's own and not spoken of. -/
def TookFault (kind : FaultKind) (word pc : Word) (s t : State) : Prop :=
  (t.halt = true ∧ t.fkind = kind.code ∧ t.fword = word ∧ t.fpc = pc ∧ t.beep = false) ∧
    (t.pc = s.pc ∧ KeepsRegsBut [] s t ∧ t.mem = s.mem ∧ KeepsIndex s t ∧ KeepsStack s t ∧ KeepsTimers s t ∧
      KeepsScreen s t ∧ t.keys = s.keys)

/-- The set sprite bit of `rows` that addresses the cell (row, col) of the grid when the sprite is drawn
at column `px`, row `py`, if there is one (R166, R168): row `row - py` of the sprite, column `col - px`,
which is bit `7 - (col - px)` of its byte (R167, decision D13). -/
def spriteBitAt (px py : Nat) (rows : List Byte) (row col : Nat) : Bool :=
  decide (row < 32 ∧ col < 64 ∧ px ≤ col ∧ col < px + 8 ∧ py ≤ row) &&
    (match rows[row - py]? with
     | some b => b.getLsbD (7 - (col - px))
     | none => false)

/-- The illegal words, row by row of R75. -/
def illegalWord (w : Word) : Bool := decide (
  (w &&& 0xF000#16 = 0x0000#16 ∧ w ≠ 0x00E0#16 ∧ w ≠ 0x00EE#16) ∨
  (w &&& 0xF000#16 = 0x5000#16 ∧ w &&& 0x000F#16 ≠ 0#16) ∨
  (w &&& 0xF000#16 = 0x8000#16 ∧ w &&& 0x000F#16 ∈ [0x8#16, 0x9#16, 0xA#16, 0xB#16, 0xC#16, 0xD#16, 0xF#16]) ∨
  (w &&& 0xF000#16 = 0x9000#16 ∧ w &&& 0x000F#16 ≠ 0#16) ∨
  (w &&& 0xF000#16 = 0xE000#16 ∧ w &&& 0x00FF#16 ∉ [0x9E#16, 0xA1#16]) ∨
  (w &&& 0xF000#16 = 0xF000#16 ∧
    w &&& 0x00FF#16 ∉ [0x07#16, 0x0A#16, 0x15#16, 0x18#16, 0x1E#16, 0x29#16, 0x33#16, 0x55#16, 0x65#16]))

/-- The value of `V[x]` for the register index in bits 11:8 of a word. -/
def State.regOfWord (s : State) (w : Word) : Nat := (s.reg (w.extractLsb' 8 4)).toNat

/-- The fault the word `w` raises when it is executed in state `s`, if any (R191 to R194): an illegal
word; `00EE` with `SP = 0`; `2nnn` with `SP = 12`; `Fx33` with `I + 2 > 0xFFF`; `Fx55`, `Fx65` with
`I + x > 0xFFF`; `Dxyn` with `n > 0` and `I + n - 1 > 0xFFF`; `Ex9E`, `ExA1` with `V[x] > 15`. -/
def faultOfWord (s : State) (w : Word) : Option FaultKind :=
  if illegalWord w then some .unsupportedInstruction
  else if w = 0x00EE#16 ∧ s.sp.val = 0 then some .stackUnderflow
  else if w &&& 0xF000#16 = 0x2000#16 ∧ s.sp.val = 12 then some .stackOverflow
  else if w &&& 0xF0FF#16 = 0xF033#16 ∧ s.i.toNat + 2 > 0xFFF then some .memoryOutOfRange
  else if (w &&& 0xF0FF#16 = 0xF055#16 ∨ w &&& 0xF0FF#16 = 0xF065#16) ∧
      s.i.toNat + (w.extractLsb' 8 4).toNat > 0xFFF then some .memoryOutOfRange
  else if w &&& 0xF000#16 = 0xD000#16 ∧ (w.extractLsb' 0 4).toNat > 0 ∧
      s.i.toNat + (w.extractLsb' 0 4).toNat - 1 > 0xFFF then some .memoryOutOfRange
  else if (w &&& 0xF0FF#16 = 0xE09E#16 ∨ w &&& 0xF0FF#16 = 0xE0A1#16) ∧ s.regOfWord w > 15 then
    some .unsupportedInstruction
  else none

/-- `PC` after an instruction that does not fault, by the outcome table of R94: `Jump(a)`, `Skip` where the
condition of a skip instruction holds, `Suspend` while `Fx0A` finds no key, else `Advance`. -/
def pcAfter (i : Instr) (s : State) : Word :=
  match i with
  | .jp nnn | .call nnn => BitVec.ofNat 16 nnn.toNat
  | .jpV0 nnn => BitVec.ofNat 16 (nnn.toNat + (s.reg 0#4).toNat)
  | .ret => s.stack.toList.getD (s.sp.val - 1) 0#16
  | .seImm x kk => if s.reg x = kk then s.pc + 4#16 else s.pc + 2#16
  | .sneImm x kk => if s.reg x ≠ kk then s.pc + 4#16 else s.pc + 2#16
  | .seReg x y => if s.reg x = s.reg y then s.pc + 4#16 else s.pc + 2#16
  | .sneReg x y => if s.reg x ≠ s.reg y then s.pc + 4#16 else s.pc + 2#16
  | .skp x => if s.keys.toList.getD (s.reg x).toNat false = true then s.pc + 4#16 else s.pc + 2#16
  | .sknp x => if s.keys.toList.getD (s.reg x).toNat false = false then s.pc + 4#16 else s.pc + 2#16
  | .ldVxK _ => if ∃ k : Nibble, s.key k = true then s.pc + 2#16 else s.pc
  | _ => s.pc + 2#16

/-- The general registers an instruction writes as its result (spec/42_alu.md, R154, R155, R177, R178):
the register its field `x` names, or `V0..V[x]` for `Fx65`. -/
def writesResult (i : Instr) (r : Nibble) : Prop :=
  match i with
  | .ldImm x _ | .addImm x _ | .ldReg x _ | .orReg x _ | .andReg x _ | .xorReg x _ | .addReg x _
  | .subReg x _ | .shr x _ | .subn x _ | .shl x _ | .rnd x _ | .ldVxDt x | .ldVxK x => r = x
  | .ldVxMem x => r.toNat ≤ x.toNat
  | _ => False

/-- The six instructions that write `VF` as a flag (the table of R21). -/
def writesFlag : Instr → Prop
  | .addReg _ _ | .subReg _ _ | .shr _ _ | .subn _ _ | .shl _ _ | .drw _ _ _ => True
  | _ => False

/-- The word at `PC` as R56 composes it. -/
def State.wordAtPc (s : State) : Word := s.byteAt s.pc.toNat ++ s.byteAt (s.pc.toNat + 1)

/-- The fault kind and `FWORD` of the next cycle of an engine that is not halted, if that cycle faults
(R197): fetch bounds first, then the word. -/
def State.faultDue (s : State) : Option (FaultKind × Word) :=
  if s.pc.toNat > 0xFFE then some (.memoryOutOfRange, 0x0000#16)
  else (faultOfWord s s.wordAtPc).map (fun k => (k, s.wordAtPc))

/-- The invariant of the machine. Memory has its canonical form. While `HALT` is 0 the latch holds its
reset values (R29). While it is 1, `BEEP` is 0 (R198, R207), `FPC` is `PC` (R196), and the latched kind
and word are those of the fault that the unchanged state raises (R199). -/
def State.Inv (s : State) : Prop :=
  Memory.wf s.mem ∧
    (s.halt = false → s.fkind = 0#3 ∧ s.fword = 0#16 ∧ s.fpc = 0#16) ∧
    (s.halt = true → s.beep = false ∧ s.fpc = s.pc ∧
      ∃ f, s.faultDue = some f ∧ s.fkind = f.1.code ∧ s.fword = f.2)

/-- The states the machine and its host can reach (R62, R234): a reset with some font and a successful
load, then cycles with any inputs and `set_key` calls in any order, and reset and load again. -/
inductive Reachable : State → Prop where
  /-- Power-up or a later reset, then `load`. -/
  | boot (s t : State) (font : Vector Byte 80) (image : List Byte) :
      (s.resetPort font).load image = .ok t → Reachable t
  /-- `run_cycle` with the inputs that State holds. -/
  | cycle (s t : State) : Reachable s → step s = .next t → Reachable t
  /-- The driver presents inputs for the coming cycle. -/
  | inputs (s : State) (rnd : Byte) (timerEn : Bool) : Reachable s → Reachable (s.withInputs rnd timerEn)
  /-- A `set_key` call. -/
  | key (s : State) (index : Nibble) (pressed : Bool) : Reachable s → Reachable (s.setKey index pressed)

/-- A safe state: no fault has stopped the engine (R243). -/
def State.Safe (s : State) : Prop := s.halt = false

end Sys2Proof.Machine
end

