-- ==== Sys2Proof/Certificates/Slice0/Obligations.lean ====
section
/-! DEFINITION. The statements for the provers, from the numbered rules of spec/. Where a clause rests on
a decision of spec/92_eei_decisions.md or on a choice of the model's own, the docstring names it. Every
clause that says what a fault records or keeps (`TookFault`) rests on D9 (nothing else changes), D10 (the
latch and `HALT`) and D12 (the codes). -/

open Sys2Proof Sys2Proof.Machine

/-! Encoding. -/

/-- Decoding the word of a well-formed instruction gives the instruction back, every field at every value
(R70 to R74). -/
def Obligations.DecodeOfEncode : Prop :=
  ∀ i : Instr, i.wellFormed = true → decodeWord (encode i) = .ok i ∧
    ∀ rest, decode (encodeBytes i ++ rest) = .ok (i, rest)

/-- Where a word decodes, it is the word of the instruction read, which is well formed: no word has two
spellings and no bit is dropped. -/
def Obligations.EncodeOfDecode : Prop :=
  ∀ (w : Word) (i : Instr), decodeWord w = .ok i → encode i = w ∧ i.wellFormed = true

/-- The opcode map R74: a word decodes to an instruction of a row exactly when `word & mask == match`,
`0nnn` only where the word is neither 0x00E0 nor 0x00EE. -/
def Obligations.OpcodeMapSelectsTheRow : Prop :=
  ∀ (w : Word) (j : Instr),
    (w &&& j.tableRow.2 = j.tableRow.1 ∧ ((∃ nnn, j = .sys nnn) → w ≠ 0x00E0#16 ∧ w ≠ 0x00EE#16)) ↔
      ∃ i, decodeWord w = .ok i ∧ i.tableRow = j.tableRow

/-- R75: the illegal words are exactly those of its table; every other word decodes to one of the 34
executable patterns; a cycle that fetches an illegal word faults, changes nothing else and records the
word and `PC` (decisions D5, D9, D10, D12). -/
def Obligations.IllegalWordsFault : Prop :=
  (∀ w : Word, illegalWord w = false → ∃ i, decodeWord w = .ok i ∧ ∀ nnn, i ≠ .sys nnn) ∧
  ∀ s : State, s.halt = false → s.pc.toNat ≤ 0xFFE → illegalWord s.wordAtPc = true →
    ∃ t, step s = .next t ∧ TookFault .unsupportedInstruction s.wordAtPc s.pc s t

/-- Words written out from R74, at least one of each of the sixteen families (first nibbles, R12), decode to the instructions they stand for. -/
def Obligations.WordsOfEveryFamilyDecode : Prop :=
  decodeTableWord 16 0x00E0 = some .cls ∧ decodeTableWord 16 0x00EE = some .ret ∧
  decodeTableWord 16 0x0123 = some (.sys 0x123#12) ∧ decodeTableWord 16 0x1ABC = some (.jp 0xABC#12) ∧
  decodeTableWord 16 0x2300 = some (.call 0x300#12) ∧ decodeTableWord 16 0x3A2A = some (.seImm 0xA#4 0x2A#8) ∧
  decodeTableWord 16 0x4A2A = some (.sneImm 0xA#4 0x2A#8) ∧ decodeTableWord 16 0x5120 = some (.seReg 0x1#4 0x2#4) ∧
  decodeTableWord 16 0x6A02 = some (.ldImm 0xA#4 0x02#8) ∧ decodeTableWord 16 0x7A05 = some (.addImm 0xA#4 0x05#8) ∧
  decodeTableWord 16 0x812E = some (.shl 0x1#4 0x2#4) ∧ decodeTableWord 16 0x9120 = some (.sneReg 0x1#4 0x2#4) ∧
  decodeTableWord 16 0xA123 = some (.ldI 0x123#12) ∧ decodeTableWord 16 0xB2A0 = some (.jpV0 0x2A0#12) ∧
  decodeTableWord 16 0xC30F = some (.rnd 0x3#4 0x0F#8) ∧
  decodeTableWord 16 0xD125 = some (.drw 0x1#4 0x2#4 0x5#4) ∧ decodeTableWord 16 0xE5A1 = some (.sknp 0x5#4) ∧
  decodeTableWord 16 0xF365 = some (.ldVxMem 0x3#4) ∧ decodeTableWord 16 0x8128 = none ∧
  decodeTableWord 16 0xF1FF = none

/-! The engine cycle. -/

/-- A step runs the decoded instruction: where the engine is not halted and the word at `PC` decodes to
`i`, the cycle is `exec i` and then `finishCycle` (the timer phase or `BEEP <- 0`, none of it after a
fault, and the taking-up of the inputs). That the timer phase follows the instruction and is left out after
a fault is the decision D5 (log entry 5); the taking-up of the inputs is the model's own (log entry 1). -/
def Obligations.StepRunsTheDecodedInstruction : Prop :=
  ∀ (s : State) (i : Instr), s.halt = false → s.pc.toNat ≤ 0xFFE → decodeWord s.wordAtPc = .ok i →
    ∀ t, exec i s = .next t → step s = .next t.finishCycle

/-- A halted engine's cycle changes nothing and its result repeats the latched record. Rests on the
decisions D10 and D21 (the sentence of R91 "When `HALT` is 1 ..."). -/
def Obligations.HaltedCycleChangesNothing : Prop :=
  ∀ s : State, s.halt = true → step s = .next s ∧ s.result = .fault s.fkind s.fword s.fpc

/-- A fetch at `PC > 0xFFE` faults with `MemoryOutOfRange`, records the word 0x0000 and `PC`, and changes
nothing else. Rests on the decisions D4 and D11. -/
def Obligations.FetchOutOfRangeFaults : Prop :=
  ∀ s : State, s.halt = false → s.pc.toNat > 0xFFE →
    ∃ t, step s = .next t ∧ TookFault .memoryOutOfRange 0x0000#16 s.pc s t

/-- The timer phase R206 (its place after the instruction is the decision D5, `BEEP` is D6), in a cycle whose instruction leaves `u` and does not fault: with `timer_en` 1
each timer above 0 loses 1 and one at 0 stays, and `BEEP` says whether `ST` was above 0; with `timer_en` 0
the timers stay and `BEEP` is 0; all else is as the instruction left it. -/
def Obligations.TimerPhaseAfterTheInstruction : Prop :=
  ∀ (s u : State) (i : Instr), s.halt = false → s.pc.toNat ≤ 0xFFE → decodeWord s.wordAtPc = .ok i →
    exec i s = .next u → u.halt = false →
    ∃ t, step s = .next t ∧
      (s.timerEn = true → t.dt.toNat = u.dt.toNat - 1 ∧ t.st.toNat = u.st.toNat - 1 ∧
        (t.beep = true ↔ u.st.toNat > 0)) ∧
      (s.timerEn = false → KeepsTimers u t ∧ t.beep = false) ∧
      t.pc = u.pc ∧ KeepsRegsBut [] u t ∧ t.mem = u.mem ∧ KeepsIndex u t ∧ KeepsStack u t ∧ KeepsScreen u t ∧
      t.keys = u.keys ∧ t.timerEn = s.timerEn ∧ t.halt = false ∧ t.fkind = u.fkind ∧ t.fword = u.fword ∧
      t.fpc = u.fpc

/-- The transition is total: from every state a cycle answers a next state, none stops the run by a fault
or a refusal of the model's own, and its result is `Ok` exactly when `HALT` is 0 after it (R90, R99,
decision D21). -/
def Obligations.EveryCycleAnswersANextState : Prop :=
  ∀ s : State, ∃ t, step s = .next t ∧ (t.result = .ok ↔ t.halt = false)

/-- A cycle of an engine that is not halted faults exactly when R190 to R194 and R197 say so, with the
kind, the word and the `PC` they say, and then changes nothing but the latch and `BEEP`; otherwise it
leaves the latch alone. Rests on the decisions D8 to D12 and D15. -/
def Obligations.CycleFaultsExactlyWhenDue : Prop :=
  ∀ s : State, s.halt = false → ∃ t, step s = .next t ∧
    (∀ f, s.faultDue = some f → TookFault f.1 f.2 s.pc s t) ∧
    (s.faultDue = none → t.halt = false ∧ t.fkind = s.fkind ∧ t.fword = s.fword ∧ t.fpc = s.fpc)

/-- The same of one well-formed instruction: it raises the fault of its word and nothing else happens, or
it leaves the latch alone. The kind is latched under the code of the table of R190: 1, 2, 3 or 4. Rests on
the decisions D8, D9, D10, D12 and D15. -/
def Obligations.InstructionFaultsExactlyWhenItsWordDoes : Prop :=
  ∀ (i : Instr) (s : State), i.wellFormed = true → ∃ t, exec i s = .next t ∧ KeepsInputs s t ∧
    (∀ k, faultOfWord s (encode i) = some k → TookFault k (encode i) s.pc s t) ∧
    (faultOfWord s (encode i) = some .unsupportedInstruction → t.fkind = 1#3) ∧
    (faultOfWord s (encode i) = some .stackOverflow → t.fkind = 2#3) ∧
    (faultOfWord s (encode i) = some .stackUnderflow → t.fkind = 3#3) ∧
    (faultOfWord s (encode i) = some .memoryOutOfRange → t.fkind = 4#3) ∧
    (faultOfWord s (encode i) = none → KeepsLatch s t)

/-- R94: each instruction has exactly one outcome, which alone decides `PC`: unchanged by a fault, else by
the outcome table. Rests on D4 (`PC` is never masked), D8, D9, D10 and D15 (when an instruction faults). -/
def Obligations.OutcomeDecidesPc : Prop :=
  ∀ (i : Instr) (s t : State), i.wellFormed = true → exec i s = .next t →
    t.pc = if (faultOfWord s (encode i)).isSome then s.pc else pcAfter i s

/-! The invariant. -/

/-- The reset state meets the invariant. -/
def Obligations.ResetMeetsInvariant : Prop := State.reset.Inv

/-- Every cycle keeps the invariant: canonical memory, a clear latch while `HALT` is 0, and a latched
record that is the fault the unchanged state raises while it is 1. -/
def Obligations.StepKeepsInvariant : Prop := ∀ s t : State, s.Inv → step s = .next t → t.Inv

/-- Every host move that may come between cycles keeps the invariant, `reset` sets it up from any state,
and so does `load` of any image that fits, after it. -/
def Obligations.PortsKeepInvariant : Prop :=
  (∀ (s : State) (k : Nibble) (b : Bool), s.Inv → (s.setKey k b).Inv) ∧
  (∀ (s : State) (r : Byte) (e : Bool), s.Inv → (s.withInputs r e).Inv) ∧
  (∀ (s : State) (font : Vector Byte 80), (s.resetPort font).Inv) ∧
  (∀ (s t : State) (image : List Byte), s.Inv → s.halt = false → s.load image = .ok t → t.Inv)

/-- Every state that reset, load, cycles with any inputs and key moves can reach meets the invariant, and
in each the next cycle answers a next state. -/
def Obligations.ReachableStatesMeetInvariant : Prop :=
  ∀ s : State, Reachable s → s.Inv ∧ ∃ t, step s = .next t

/-! Reset and the host's ports. -/

/-- R231: execution starts at 0x200 with an empty stack, all registers zero, both timers zero and a dark
frame buffer. -/
def Obligations.ResetEntryState : Prop :=
  State.reset.pc = 0x0200#16 ∧ State.reset.sp.val = 0 ∧ (∀ r, State.reset.reg r = 0#8) ∧
  State.reset.i = 0#16 ∧ State.reset.dt = 0#8 ∧ State.reset.st = 0#8 ∧
  ∀ row col, FrameBuffer.cell State.reset.fb row col = false

/-- The rest of the reset table: the latch clear and no beep (decisions D10, D6), no key pressed (D23),
the slots zero (D16), memory zero above the font (above 0xFFF there is none: log entry 10), and below 0x050
the 80 bytes of the table of R52, glyph after glyph: the default font, PRESUMED (D14, K1, log entry 3). -/
def Obligations.ResetLatchKeysAndMemory : Prop :=
  State.reset.result = .ok ∧ State.reset.fkind = 0#3 ∧ State.reset.fword = 0#16 ∧ State.reset.fpc = 0#16 ∧
  State.reset.beep = false ∧ (∀ k, State.reset.key k = false) ∧ (∀ k, State.reset.slot k = 0#16) ∧
  (∀ a, 0x50 ≤ a → State.reset.byteAt a = 0#8) ∧
  fontRom.length = 80 ∧ (∀ (a : Nat) (h : a < fontRom.length), State.reset.byteAt a = fontRom[a]) ∧
  (List.range 80).map State.reset.byteAt =
    [0xF0#8, 0x90#8, 0x90#8, 0x90#8, 0xF0#8] ++ [0x20#8, 0x60#8, 0x20#8, 0x20#8, 0x70#8] ++
    [0xF0#8, 0x10#8, 0xF0#8, 0x80#8, 0xF0#8] ++ [0xF0#8, 0x10#8, 0xF0#8, 0x10#8, 0xF0#8] ++
    [0x90#8, 0x90#8, 0xF0#8, 0x10#8, 0x10#8] ++ [0xF0#8, 0x80#8, 0xF0#8, 0x10#8, 0xF0#8] ++
    [0xF0#8, 0x80#8, 0xF0#8, 0x90#8, 0xF0#8] ++ [0xF0#8, 0x10#8, 0x20#8, 0x40#8, 0x40#8] ++
    [0xF0#8, 0x90#8, 0xF0#8, 0x90#8, 0xF0#8] ++ [0xF0#8, 0x90#8, 0xF0#8, 0x10#8, 0xF0#8] ++
    [0xF0#8, 0x90#8, 0xF0#8, 0x90#8, 0x90#8] ++ [0xE0#8, 0x90#8, 0xE0#8, 0x90#8, 0xE0#8] ++
    [0xF0#8, 0x80#8, 0x80#8, 0x80#8, 0xF0#8] ++ [0xE0#8, 0x90#8, 0x90#8, 0x90#8, 0xE0#8] ++
    [0xF0#8, 0x80#8, 0xF0#8, 0x80#8, 0xF0#8] ++ [0xF0#8, 0x80#8, 0xF0#8, 0x80#8, 0x80#8]

/-- `reset` with any font, from any state, a halted one too: memory is the font and zero, everything else
is at its reset value, and only the inputs are not touched. Rests on the decisions D14 and D23; above 0xFFF
there is no memory (log entry 10). -/
def Obligations.ResetPortClearsEverything : Prop :=
  ∀ (s : State) (font : Vector Byte 80),
    (∀ (a : Nat) (h : a < 80), (s.resetPort font).byteAt a = font[a]) ∧
    (∀ a, 80 ≤ a → (s.resetPort font).byteAt a = 0#8) ∧ Memory.wf (s.resetPort font).mem ∧
    { s.resetPort font with mem := [] } = { State.reset with timerEn := s.timerEn, cycle := s.cycle }

/-- `load`: an image of at most 3584 bytes is copied to 0x200 and nothing else changes; a longer one is
`ProgramTooLarge` and writes nothing (R232, R233, decision D18). -/
def Obligations.LoadCopiesTheImage : Prop :=
  ∀ (s : State) (image : List Byte),
    (image.length ≤ 3584 → ∃ t, s.load image = .ok t ∧
      (∀ (k : Nat) (h : k < image.length), t.byteAt (0x200 + k) = image[k]) ∧
      KeepsMemOutside 0x200 image.length s t ∧ { t with mem := s.mem } = s) ∧
    (image.length > 3584 → s.load image = .error .programTooLarge)

/-- `set_key` sets one flag and touches nothing else, halted or not. Rests on the decision D17. -/
def Obligations.SetKeyWritesOneFlag : Prop :=
  ∀ (s : State) (k : Nibble) (b : Bool),
    (∀ j, (s.setKey k b).key j = if j = k then b else s.key j) ∧ { s.setKey k b with keys := s.keys } = s

/-! Control flow. -/

/-- R110: `00EE` pops the top slot into `PC`, keeps the slot (D16), and changes nothing else; on an empty
stack it raises `StackUnderflow` (D9, D10, D12). -/
def Obligations.ReturnPopsIntoPc : Prop :=
  decodeWord 0x00EE#16 = .ok .ret ∧
  (∀ (s : State) (k : Fin 12), s.sp.val = k.val + 1 → ∃ t, exec .ret s = .next t ∧
    t.pc = s.slot k ∧ t.sp.val = k.val ∧ t.stack = s.stack ∧
    KeepsRegsBut [] s t ∧ KeepsMem s t ∧ KeepsIndex s t ∧ KeepsTimers s t ∧ KeepsScreen s t ∧ KeepsLatch s t ∧
    KeepsInputs s t) ∧
  ∀ s : State, s.sp.val = 0 → ∃ t, exec .ret s = .next t ∧ TookFault .stackUnderflow 0x00EE#16 s.pc s t

/-- R111: `0nnn` always raises `UnsupportedInstruction` (D9, D10, D12). For `nnn` 0x0E0 and 0x0EE, whose
words are `00E0` and `00EE` and no `0nnn` word, the second clause speaks of the ill-formed term only: that
`exec` takes the same fault for it is the model's choice (log entry 13). -/
def Obligations.SysAlwaysFaults : Prop :=
  ∀ (nnn : Addr12) (s : State),
    (0x0#4 ++ nnn ≠ 0x00E0#16 → 0x0#4 ++ nnn ≠ 0x00EE#16 → decodeWord (0x0#4 ++ nnn) = .ok (.sys nnn)) ∧
    ∃ t, exec (.sys nnn) s = .next t ∧ TookFault .unsupportedInstruction (0x0#4 ++ nnn) s.pc s t

/-- R112: `1nnn` sets `PC` to exactly `nnn` and changes nothing else. -/
def Obligations.JumpSetsPc : Prop :=
  ∀ (nnn : Addr12) (s : State), decodeWord (0x1#4 ++ nnn) = .ok (.jp nnn) ∧
    ∃ t, exec (.jp nnn) s = .next t ∧ t.pc.toNat = nnn.toNat ∧ OnlyRegs [] s t

/-- R113: `2nnn` pushes `PC + 2`, sets `PC` to `nnn` and changes nothing else; on a full stack it raises
`StackOverflow` (D9, D10, D12). The slot holds the whole 16-bit value (D16). -/
def Obligations.CallPushesAndJumps : Prop :=
  ∀ (nnn : Addr12) (s : State), decodeWord (0x2#4 ++ nnn) = .ok (.call nnn) ∧
    (s.sp.val < 12 → ∃ t, exec (.call nnn) s = .next t ∧ t.pc.toNat = nnn.toNat ∧
      t.sp.val = s.sp.val + 1 ∧
      (∀ k : Fin 12, t.slot k = if k.val = s.sp.val then s.pc + 2#16 else s.slot k) ∧
      KeepsRegsBut [] s t ∧ KeepsMem s t ∧ KeepsIndex s t ∧ KeepsTimers s t ∧ KeepsScreen s t ∧
      KeepsLatch s t ∧ KeepsInputs s t) ∧
    (s.sp.val = 12 → ∃ t, exec (.call nnn) s = .next t ∧
      TookFault .stackOverflow (0x2#4 ++ nnn) s.pc s t)

/-- The call and return property: a return from any state that has the call's stack resumes at the
instruction after the call, at the depth before it. -/
def Obligations.ReturnAfterCallResumes : Prop :=
  ∀ (nnn : Addr12) (s : State), s.sp.val < 12 → ∃ t, exec (.call nnn) s = .next t ∧
    ∀ u : State, u.sp = t.sp → u.stack = t.stack → ∃ w, exec .ret u = .next w ∧
      w.pc = s.pc + 2#16 ∧ w.sp = s.sp

/-- `Bnnn` sets `PC` to `nnn + V0`, unmasked, and changes nothing else. That the sum is not masked to 12
bits is the decision D4. -/
def Obligations.JumpWithOffset : Prop :=
  ∀ (nnn : Addr12) (s : State), decodeWord (0xB#4 ++ nnn) = .ok (.jpV0 nnn) ∧
    ∃ t, exec (.jpV0 nnn) s = .next t ∧ t.pc.toNat = nnn.toNat + (s.reg 0#4).toNat ∧ OnlyRegs [] s t

/-- R115, R116: `3xkk` skips if `V[x] == kk`, `4xkk` if not; nothing but `PC` changes. -/
def Obligations.SkipOnImmediate : Prop :=
  ∀ (x : Nibble) (kk : Byte) (s : State),
    (decodeWord (0x3#4 ++ x ++ kk) = .ok (.seImm x kk) ∧ ∃ t, exec (.seImm x kk) s = .next t ∧
      t.pc = (if s.reg x = kk then s.pc + 4#16 else s.pc + 2#16) ∧ OnlyRegs [] s t) ∧
    (decodeWord (0x4#4 ++ x ++ kk) = .ok (.sneImm x kk) ∧ ∃ t, exec (.sneImm x kk) s = .next t ∧
      t.pc = (if s.reg x = kk then s.pc + 2#16 else s.pc + 4#16) ∧ OnlyRegs [] s t)

/-- R117, R118: `5xy0` skips if `V[x] == V[y]`, `9xy0` if not; nothing but `PC` changes. -/
def Obligations.SkipOnRegisters : Prop :=
  ∀ (x y : Nibble) (s : State),
    (decodeWord (0x5#4 ++ x ++ y ++ 0x0#4) = .ok (.seReg x y) ∧ ∃ t, exec (.seReg x y) s = .next t ∧
      t.pc = (if s.reg x = s.reg y then s.pc + 4#16 else s.pc + 2#16) ∧ OnlyRegs [] s t) ∧
    (decodeWord (0x9#4 ++ x ++ y ++ 0x0#4) = .ok (.sneReg x y) ∧ ∃ t, exec (.sneReg x y) s = .next t ∧
      t.pc = (if s.reg x = s.reg y then s.pc + 2#16 else s.pc + 4#16) ∧ OnlyRegs [] s t)

/-! Register loads, ALU and random. -/

/-- R130, R132: `6xkk` sets `V[x]` to `kk`, `8xy0` to `V[y]`; they advance and change nothing else. -/
def Obligations.LoadsSetTheRegister : Prop :=
  ∀ (x y : Nibble) (kk : Byte) (s : State),
    (decodeWord (0x6#4 ++ x ++ kk) = .ok (.ldImm x kk) ∧ ∃ t, exec (.ldImm x kk) s = .next t ∧
      t.reg x = kk ∧ t.pc = s.pc + 2#16 ∧ OnlyRegs [x] s t) ∧
    (decodeWord (0x8#4 ++ x ++ y ++ 0x0#4) = .ok (.ldReg x y) ∧ ∃ t, exec (.ldReg x y) s = .next t ∧
      t.reg x = s.reg y ∧ t.pc = s.pc + 2#16 ∧ OnlyRegs [x] s t)

/-- R131: `7xkk` adds `kk` modulo 256; no flag. -/
def Obligations.AddImmediateWraps : Prop :=
  ∀ (x : Nibble) (kk : Byte) (s : State), decodeWord (0x7#4 ++ x ++ kk) = .ok (.addImm x kk) ∧
    ∃ t, exec (.addImm x kk) s = .next t ∧ (t.reg x).toNat = ((s.reg x).toNat + kk.toNat) % 256 ∧
      t.pc = s.pc + 2#16 ∧ OnlyRegs [x] s t

/-- R133, R134, R135: OR, AND and XOR, bit by bit; no flag. -/
def Obligations.LogicBitByBit : Prop :=
  ∀ (x y : Nibble) (s : State),
    (decodeWord (0x8#4 ++ x ++ y ++ 0x1#4) = .ok (.orReg x y) ∧ ∃ t, exec (.orReg x y) s = .next t ∧
      (∀ k, (t.reg x).getLsbD k = ((s.reg x).getLsbD k || (s.reg y).getLsbD k)) ∧
      t.pc = s.pc + 2#16 ∧ OnlyRegs [x] s t) ∧
    (decodeWord (0x8#4 ++ x ++ y ++ 0x2#4) = .ok (.andReg x y) ∧ ∃ t, exec (.andReg x y) s = .next t ∧
      (∀ k, (t.reg x).getLsbD k = ((s.reg x).getLsbD k && (s.reg y).getLsbD k)) ∧
      t.pc = s.pc + 2#16 ∧ OnlyRegs [x] s t) ∧
    (decodeWord (0x8#4 ++ x ++ y ++ 0x3#4) = .ok (.xorReg x y) ∧ ∃ t, exec (.xorReg x y) s = .next t ∧
      (∀ k, (t.reg x).getLsbD k = ((s.reg x).getLsbD k ^^ (s.reg y).getLsbD k)) ∧
      t.pc = s.pc + 2#16 ∧ OnlyRegs [x] s t)

/-- R136: `8xy4` adds modulo 256 and `VF` is the carry. (`x` or `y` 15: `AluWithVfAsOperand`.) -/
def Obligations.AddSetsCarry : Prop :=
  ∀ (x y : Nibble) (s : State), x ≠ 0xF#4 → y ≠ 0xF#4 →
    decodeWord (0x8#4 ++ x ++ y ++ 0x4#4) = .ok (.addReg x y) ∧ ∃ t, exec (.addReg x y) s = .next t ∧
      (t.reg x).toNat = ((s.reg x).toNat + (s.reg y).toNat) % 256 ∧
      t.reg 0xF#4 = (if (s.reg x).toNat + (s.reg y).toNat > 255 then 1#8 else 0#8) ∧
      t.pc = s.pc + 2#16 ∧ OnlyRegs [x, 0xF#4] s t

/-- R137, R139: `8xy5` and `8xy7` subtract modulo 256 and `VF` is NOT borrow. (`x` or `y` 15:
`AluWithVfAsOperand`.) -/
def Obligations.SubtractsSetNoBorrow : Prop :=
  ∀ (x y : Nibble) (s : State), x ≠ 0xF#4 → y ≠ 0xF#4 →
    (decodeWord (0x8#4 ++ x ++ y ++ 0x5#4) = .ok (.subReg x y) ∧ ∃ t, exec (.subReg x y) s = .next t ∧
      (t.reg x).toNat = ((s.reg x).toNat + 256 - (s.reg y).toNat) % 256 ∧
      t.reg 0xF#4 = (if (s.reg x).toNat ≥ (s.reg y).toNat then 1#8 else 0#8) ∧
      t.pc = s.pc + 2#16 ∧ OnlyRegs [x, 0xF#4] s t) ∧
    (decodeWord (0x8#4 ++ x ++ y ++ 0x7#4) = .ok (.subn x y) ∧ ∃ t, exec (.subn x y) s = .next t ∧
      (t.reg x).toNat = ((s.reg y).toNat + 256 - (s.reg x).toNat) % 256 ∧
      t.reg 0xF#4 = (if (s.reg y).toNat ≥ (s.reg x).toNat then 1#8 else 0#8) ∧
      t.pc = s.pc + 2#16 ∧ OnlyRegs [x, 0xF#4] s t)

/-- R138, R140: `8xy6` and `8xyE` shift `V[y]` by one into `V[x]`; `VF` is bit 0 or bit 7 of the old `V[x]`.
(`x` or `y` 15: `AluWithVfAsOperand`.) -/
def Obligations.ShiftsTakeValueFromVyFlagFromVx : Prop :=
  ∀ (x y : Nibble) (s : State), x ≠ 0xF#4 → y ≠ 0xF#4 →
    (decodeWord (0x8#4 ++ x ++ y ++ 0x6#4) = .ok (.shr x y) ∧ ∃ t, exec (.shr x y) s = .next t ∧
      (t.reg x).toNat = (s.reg y).toNat / 2 ∧ (t.reg 0xF#4).toNat = (s.reg x).toNat % 2 ∧
      t.pc = s.pc + 2#16 ∧ OnlyRegs [x, 0xF#4] s t) ∧
    (decodeWord (0x8#4 ++ x ++ y ++ 0xE#4) = .ok (.shl x y) ∧ ∃ t, exec (.shl x y) s = .next t ∧
      (t.reg x).toNat = (s.reg y).toNat * 2 % 256 ∧ (t.reg 0xF#4).toNat = (s.reg x).toNat / 128 ∧
      t.pc = s.pc + 2#16 ∧ OnlyRegs [x, 0xF#4] s t)

/-- The table of R143 for every `x`, `y` with `x` or `y` 15: the result, of the operands before the
instruction, is in `V[x]`, and where `x` is 15 the flag is lost; where it is not, `VF` is the flag. Rests on
the decisions D1 and D2. -/
def Obligations.AluWithVfAsOperand : Prop :=
  ∀ (x y : Nibble) (s : State), x = 0xF#4 ∨ y = 0xF#4 →
    (∃ t, exec (.addReg x y) s = .next t ∧ (t.reg x).toNat = ((s.reg x).toNat + (s.reg y).toNat) % 256 ∧
      (x ≠ 0xF#4 → (t.reg 0xF#4).toNat = ((s.reg x).toNat + (s.reg y).toNat) / 256) ∧
      t.pc = s.pc + 2#16 ∧ OnlyRegs [x, 0xF#4] s t) ∧
    (∃ t, exec (.subReg x y) s = .next t ∧
      (t.reg x).toNat = ((s.reg x).toNat + 256 - (s.reg y).toNat) % 256 ∧
      (x ≠ 0xF#4 → t.reg 0xF#4 = if (s.reg x).toNat ≥ (s.reg y).toNat then 1#8 else 0#8) ∧
      t.pc = s.pc + 2#16 ∧ OnlyRegs [x, 0xF#4] s t) ∧
    (∃ t, exec (.subn x y) s = .next t ∧
      (t.reg x).toNat = ((s.reg y).toNat + 256 - (s.reg x).toNat) % 256 ∧
      (x ≠ 0xF#4 → t.reg 0xF#4 = if (s.reg y).toNat ≥ (s.reg x).toNat then 1#8 else 0#8) ∧
      t.pc = s.pc + 2#16 ∧ OnlyRegs [x, 0xF#4] s t) ∧
    (∃ t, exec (.shr x y) s = .next t ∧ (t.reg x).toNat = (s.reg y).toNat / 2 ∧
      (x ≠ 0xF#4 → (t.reg 0xF#4).toNat = (s.reg x).toNat % 2) ∧
      t.pc = s.pc + 2#16 ∧ OnlyRegs [x, 0xF#4] s t) ∧
    (∃ t, exec (.shl x y) s = .next t ∧ (t.reg x).toNat = (s.reg y).toNat * 2 % 256 ∧
      (x ≠ 0xF#4 → (t.reg 0xF#4).toNat = (s.reg x).toNat / 128) ∧
      t.pc = s.pc + 2#16 ∧ OnlyRegs [x, 0xF#4] s t)

/-- R141: `Cxkk` sets `V[x]` to `rnd & kk`, `rnd` the byte the driver presents on the input (in State as
`rndIn`, log entry 1); where it presents none, any byte. -/
def Obligations.RandomByteAndMask : Prop :=
  ∀ (x : Nibble) (kk : Byte) (s : State), decodeWord (0xC#4 ++ x ++ kk) = .ok (.rnd x kk) ∧
    ∃ t r, exec (.rnd x kk) s = .next t ∧ t.reg x = r &&& kk ∧ (∀ b, s.rndIn = some b → r = b) ∧
      t.pc = s.pc + 2#16 ∧ OnlyRegs [x] s t

/-! The address register and memory. -/

/-- R150, R152: `Annn` sets `I` to `nnn`, `Fx29` to five times the whole of `V[x]`; they advance and change
nothing else. -/
def Obligations.LoadIndexAndGlyph : Prop :=
  ∀ (nnn : Addr12) (x : Nibble) (s : State),
    (decodeWord (0xA#4 ++ nnn) = .ok (.ldI nnn) ∧ ∃ t, exec (.ldI nnn) s = .next t ∧
      t.i.toNat = nnn.toNat ∧ t.pc = s.pc + 2#16 ∧ KeepsRegsBut [] s t ∧ KeepsMem s t ∧ KeepsStack s t ∧
      KeepsTimers s t ∧ KeepsScreen s t ∧ KeepsLatch s t ∧ KeepsInputs s t) ∧
    (decodeWord (0xF#4 ++ x ++ 0x29#8) = .ok (.ldF x) ∧ ∃ t, exec (.ldF x) s = .next t ∧
      t.i.toNat = (s.reg x).toNat * 5 ∧ t.pc = s.pc + 2#16 ∧ KeepsRegsBut [] s t ∧ KeepsMem s t ∧
      KeepsStack s t ∧ KeepsTimers s t ∧ KeepsScreen s t ∧ KeepsLatch s t ∧ KeepsInputs s t)

/-- `Fx1E` adds `V[x]` to `I` modulo 65536 with no flag and no fault. The policy is the decision D3. -/
def Obligations.AddToIndexWraps : Prop :=
  ∀ (x : Nibble) (s : State), decodeWord (0xF#4 ++ x ++ 0x1E#8) = .ok (.addI x) ∧
    ∃ t, exec (.addI x) s = .next t ∧ t.i.toNat = (s.i.toNat + (s.reg x).toNat) % 65536 ∧
      t.pc = s.pc + 2#16 ∧ KeepsRegsBut [] s t ∧ KeepsMem s t ∧ KeepsStack s t ∧ KeepsTimers s t ∧
      KeepsScreen s t ∧ KeepsLatch s t ∧ KeepsInputs s t

/-- R153: `Fx33` stores the hundreds, tens and ones of `V[x]` at `I`, `I+1`, `I+2` and changes no other
byte and nothing else; where `I + 2 > 0xFFF` it raises `MemoryOutOfRange` and writes no byte (D3, D9, D10,
D12). -/
def Obligations.BcdStoresThreeDigits : Prop :=
  ∀ (x : Nibble) (s : State), decodeWord (0xF#4 ++ x ++ 0x33#8) = .ok (.ldB x) ∧
    (s.dataAddr + 2 ≤ 0xFFF → ∃ t, exec (.ldB x) s = .next t ∧
      (t.byteAt s.dataAddr).toNat = (s.reg x).toNat / 100 ∧
      (t.byteAt (s.dataAddr + 1)).toNat = (s.reg x).toNat / 10 % 10 ∧
      (t.byteAt (s.dataAddr + 2)).toNat = (s.reg x).toNat % 10 ∧
      KeepsMemOutside s.dataAddr 3 s t ∧ t.pc = s.pc + 2#16 ∧ KeepsRegsBut [] s t ∧ KeepsIndex s t ∧
      KeepsStack s t ∧ KeepsTimers s t ∧ KeepsScreen s t ∧ KeepsLatch s t ∧ KeepsInputs s t) ∧
    (s.dataAddr + 2 > 0xFFF → ∃ t, exec (.ldB x) s = .next t ∧
      TookFault .memoryOutOfRange (0xF#4 ++ x ++ 0x33#8) s.pc s t)

/-- R154: `Fx55` stores `V[k]` at `I + k` for `k` up to `x`, adds `x + 1` to `I` and changes nothing else;
where `I + x > 0xFFF` it raises `MemoryOutOfRange`, writes nothing and leaves `I` (D3, D9, D10, D12). -/
def Obligations.StoreRegistersAtIndex : Prop :=
  ∀ (x : Nibble) (s : State), decodeWord (0xF#4 ++ x ++ 0x55#8) = .ok (.ldMemVx x) ∧
    (s.dataAddr + x.toNat ≤ 0xFFF → ∃ t, exec (.ldMemVx x) s = .next t ∧
      (∀ k : Nibble, k.toNat ≤ x.toNat → t.byteAt (s.dataAddr + k.toNat) = s.reg k) ∧
      KeepsMemOutside s.dataAddr (x.toNat + 1) s t ∧ t.i.toNat = s.dataAddr + x.toNat + 1 ∧
      t.pc = s.pc + 2#16 ∧ KeepsRegsBut [] s t ∧ KeepsStack s t ∧ KeepsTimers s t ∧ KeepsScreen s t ∧
      KeepsLatch s t ∧ KeepsInputs s t) ∧
    (s.dataAddr + x.toNat > 0xFFF → ∃ t, exec (.ldMemVx x) s = .next t ∧
      TookFault .memoryOutOfRange (0xF#4 ++ x ++ 0x55#8) s.pc s t)

/-- R155: `Fx65` loads `V[k]` from `I + k` for `k` up to `x`, adds `x + 1` to `I` and changes nothing else;
where `I + x > 0xFFF` it raises `MemoryOutOfRange` and changes no register and not `I` (D3, D9, D10,
D12). -/
def Obligations.LoadRegistersFromIndex : Prop :=
  ∀ (x : Nibble) (s : State), decodeWord (0xF#4 ++ x ++ 0x65#8) = .ok (.ldVxMem x) ∧
    (s.dataAddr + x.toNat ≤ 0xFFF → ∃ t, exec (.ldVxMem x) s = .next t ∧
      (∀ k : Nibble, t.reg k = if k.toNat ≤ x.toNat then s.byteAt (s.dataAddr + k.toNat) else s.reg k) ∧
      t.i.toNat = s.dataAddr + x.toNat + 1 ∧ t.pc = s.pc + 2#16 ∧ KeepsMem s t ∧ KeepsStack s t ∧
      KeepsTimers s t ∧ KeepsScreen s t ∧ KeepsLatch s t ∧ KeepsInputs s t) ∧
    (s.dataAddr + x.toNat > 0xFFF → ∃ t, exec (.ldVxMem x) s = .next t ∧
      TookFault .memoryOutOfRange (0xF#4 ++ x ++ 0x65#8) s.pc s t)

/-- What `Fx55` stored, `Fx65` loads back: into any state whose memory is the one `Fx55` left and whose `I`
is where the store began. -/
def Obligations.LoadAfterStoreRestores : Prop :=
  ∀ (x : Nibble) (s : State), s.dataAddr + x.toNat ≤ 0xFFF → ∃ t, exec (.ldMemVx x) s = .next t ∧
    ∀ u : State, u.mem = t.mem → u.i = s.i → ∃ w, exec (.ldVxMem x) u = .next w ∧
      ∀ k : Nibble, k.toNat ≤ x.toNat → w.reg k = s.reg k

/-! The frame buffer. -/

/-- R165: `00E0` turns every cell off, advances and changes nothing else. -/
def Obligations.ClearTurnsEveryCellOff : Prop :=
  ∀ s : State, decodeWord 0x00E0#16 = .ok .cls ∧ ∃ t, exec .cls s = .next t ∧
    (∀ row col, FrameBuffer.cell t.fb row col = false) ∧ t.pc = s.pc + 2#16 ∧ KeepsRegsBut [] s t ∧
    KeepsMem s t ∧ KeepsIndex s t ∧ KeepsStack s t ∧ KeepsTimers s t ∧ KeepsLatch s t ∧ KeepsInputs s t

/-- `Dxyn` whose `n` bytes lie inside memory: every cell becomes its old value XOR the sprite bit that
addresses it, `VF` is 1 exactly when a set sprite bit addresses a cell that was on, it advances and changes
nothing else. Rests on the decisions D1 (position before the instruction), D13 (bit 7 is column 0) and D15
(`n = 0`). -/
def Obligations.DrawXorsTheSprite : Prop :=
  ∀ (x y n : Nibble) (s : State), n.toNat = 0 ∨ s.dataAddr + n.toNat - 1 ≤ 0xFFF →
    decodeWord (0xD#4 ++ x ++ y ++ n) = .ok (.drw x y n) ∧ ∃ t, exec (.drw x y n) s = .next t ∧
      (let rows := (List.range n.toNat).map fun k => s.byteAt (s.dataAddr + k)
       let bit := spriteBitAt (s.reg x).toNat (s.reg y).toNat rows
       (∀ row col, row < 32 → col < 64 →
          FrameBuffer.cell t.fb row col = (FrameBuffer.cell s.fb row col ^^ bit row col)) ∧
       ((∃ row col, bit row col = true ∧ FrameBuffer.cell s.fb row col = true) → t.reg 0xF#4 = 1#8) ∧
       ((¬∃ row col, bit row col = true ∧ FrameBuffer.cell s.fb row col = true) → t.reg 0xF#4 = 0#8)) ∧
      t.pc = s.pc + 2#16 ∧ KeepsRegsBut [0xF#4] s t ∧ KeepsMem s t ∧ KeepsIndex s t ∧ KeepsStack s t ∧
      KeepsTimers s t ∧ KeepsLatch s t ∧ KeepsInputs s t

/-- `Dxyn` with `n > 0` and a byte above 0xFFF raises `MemoryOutOfRange`, wherever it would draw; neither
`FB` nor `VF` changes. Rests on the decisions D9 and D15. -/
def Obligations.DrawOutOfRangeFaults : Prop :=
  ∀ (x y n : Nibble) (s : State), n.toNat > 0 → s.dataAddr + n.toNat - 1 > 0xFFF →
    ∃ t, exec (.drw x y n) s = .next t ∧ TookFault .memoryOutOfRange (0xD#4 ++ x ++ y ++ n) s.pc s t

/-- Clipping, not wrapping: with `V[x] >= 64` or `V[y] >= 32` nothing is drawn and `VF` is 0. -/
def Obligations.DrawOffScreenDrawsNothing : Prop :=
  ∀ (x y n : Nibble) (s : State), n.toNat = 0 ∨ s.dataAddr + n.toNat - 1 ≤ 0xFFF →
    (s.reg x).toNat ≥ 64 ∨ (s.reg y).toNat ≥ 32 →
    ∃ t, exec (.drw x y n) s = .next t ∧ KeepsScreen s t ∧ t.reg 0xF#4 = 0#8

/-- Drawing the same sprite twice at the same position restores the frame buffer (the premises of L1.4:
neither position register is `VF`). -/
def Obligations.DrawTwiceRestoresTheScreen : Prop :=
  ∀ (x y n : Nibble) (s : State), x ≠ 0xF#4 → y ≠ 0xF#4 → n.toNat = 0 ∨ s.dataAddr + n.toNat - 1 ≤ 0xFFF →
    ∃ t u, exec (.drw x y n) s = .next t ∧ exec (.drw x y n) t = .next u ∧ u.fb = s.fb

/-! Keypad and timers. -/

/-- R175, R176, but for their fault: with `V[x]` at most 15, `Ex9E` skips if key `V[x]` is pressed, `ExA1` if not; nothing but
`PC` changes. (`V[x] > 15`: `KeyIndexAboveFifteenFaults`.) -/
def Obligations.SkipOnKey : Prop :=
  ∀ (x k : Nibble) (s : State), (s.reg x).toNat = k.toNat →
    (decodeWord (0xE#4 ++ x ++ 0x9E#8) = .ok (.skp x) ∧ ∃ t, exec (.skp x) s = .next t ∧
      t.pc = (if s.key k = true then s.pc + 4#16 else s.pc + 2#16) ∧ OnlyRegs [] s t) ∧
    (decodeWord (0xE#4 ++ x ++ 0xA1#8) = .ok (.sknp x) ∧ ∃ t, exec (.sknp x) s = .next t ∧
      t.pc = (if s.key k = true then s.pc + 2#16 else s.pc + 4#16) ∧ OnlyRegs [] s t)

/-- `Ex9E` and `ExA1` with `V[x] > 15` raise `UnsupportedInstruction`. Rests on the decision D8. -/
def Obligations.KeyIndexAboveFifteenFaults : Prop :=
  ∀ (x : Nibble) (s : State), (s.reg x).toNat > 15 →
    (∃ t, exec (.skp x) s = .next t ∧ TookFault .unsupportedInstruction (0xE#4 ++ x ++ 0x9E#8) s.pc s t) ∧
    (∃ t, exec (.sknp x) s = .next t ∧ TookFault .unsupportedInstruction (0xE#4 ++ x ++ 0xA1#8) s.pc s t)

/-- `Fx0A`: while no key is pressed nothing changes, `PC` included; once one is, the lowest pressed index is
stored in `V[x]` and it advances. That it is the lowest is the decision D7. -/
def Obligations.KeyWaitSuspendsOrStores : Prop :=
  ∀ (x : Nibble) (s : State), decodeWord (0xF#4 ++ x ++ 0x0A#8) = .ok (.ldVxK x) ∧
    ((∀ k, s.key k = false) → exec (.ldVxK x) s = .next s) ∧
    (∀ k : Nibble, s.key k = true → (∀ j : Nibble, j.toNat < k.toNat → s.key j = false) →
      ∃ t, exec (.ldVxK x) s = .next t ∧ (t.reg x).toNat = k.toNat ∧ t.pc = s.pc + 2#16 ∧ OnlyRegs [x] s t)

/-- R178: `Fx07` sets `V[x]` to `DT`, the value before the timer phase of its cycle, which with `timer_en` 1
takes 1 from a `DT` above 0 and leaves the register. That order is the decision D5. -/
def Obligations.ReadDelayTimer : Prop :=
  ∀ (x : Nibble) (s : State), decodeWord (0xF#4 ++ x ++ 0x07#8) = .ok (.ldVxDt x) ∧
    ∃ t, exec (.ldVxDt x) s = .next t ∧ t.reg x = s.dt ∧ t.pc = s.pc + 2#16 ∧ OnlyRegs [x] s t ∧
      (s.halt = false → t.finishCycle.reg x = s.dt ∧
        t.finishCycle.dt.toNat = s.dt.toNat - (if s.timerEn then 1 else 0))

/-- R179, R180: `Fx15` sets `DT` to `V[x]`, `Fx18` `ST`, and the timer phase of the same cycle, with
`timer_en` 1, takes 1 from a value above 0 (for `ST`, with `BEEP` 1). The order is the decision D5, `BEEP` D6. -/
def Obligations.SetTimersThenTick : Prop :=
  ∀ (x : Nibble) (s : State),
    (decodeWord (0xF#4 ++ x ++ 0x15#8) = .ok (.ldDtVx x) ∧ ∃ t, exec (.ldDtVx x) s = .next t ∧
      t.dt = s.reg x ∧ t.st = s.st ∧ t.pc = s.pc + 2#16 ∧ KeepsRegsBut [] s t ∧ KeepsMem s t ∧ KeepsIndex s t ∧
      KeepsStack s t ∧ KeepsScreen s t ∧ KeepsLatch s t ∧ KeepsInputs s t ∧
      (s.halt = false → t.finishCycle.dt.toNat = (s.reg x).toNat - (if s.timerEn then 1 else 0))) ∧
    (decodeWord (0xF#4 ++ x ++ 0x18#8) = .ok (.ldStVx x) ∧ ∃ t, exec (.ldStVx x) s = .next t ∧
      t.st = s.reg x ∧ t.dt = s.dt ∧ t.pc = s.pc + 2#16 ∧ KeepsRegsBut [] s t ∧ KeepsMem s t ∧ KeepsIndex s t ∧
      KeepsStack s t ∧ KeepsScreen s t ∧ KeepsLatch s t ∧ KeepsInputs s t ∧
      (s.halt = false → t.finishCycle.st.toNat = (s.reg x).toNat - (if s.timerEn then 1 else 0) ∧
        (t.finishCycle.beep = true ↔ s.timerEn = true ∧ (s.reg x).toNat > 0)))

/-! Rules of the whole machine. -/

/-- Who writes what, over all instructions: `SP` and `STACK` only `2nnn` and `00EE`; `FB` only `Dxyn` and
`00E0`; memory only `Fx33` and `Fx55`; `I` only `Annn`, `Fx1E`, `Fx29`, `Fx55`, `Fx65`; `DT` only `Fx15`; `ST`
only `Fx18`. -/
def Obligations.OnlyTheListedInstructionsWrite : Prop :=
  ∀ (i : Instr) (s t : State), exec i s = .next t →
    (¬KeepsStack s t → i = .ret ∨ ∃ nnn, i = .call nnn) ∧
    (¬KeepsScreen s t → i = .cls ∨ ∃ x y n, i = .drw x y n) ∧
    (¬KeepsMem s t → ∃ x, i = .ldB x ∨ i = .ldMemVx x) ∧
    (¬KeepsIndex s t → (∃ nnn, i = .ldI nnn) ∨ ∃ x, i = .addI x ∨ i = .ldF x ∨ i = .ldMemVx x ∨ i = .ldVxMem x) ∧
    (t.dt ≠ s.dt → ∃ x, i = .ldDtVx x) ∧ (t.st ≠ s.st → ∃ x, i = .ldStVx x)

/-- No instruction writes a general register other than its result's, but for the six that write `VF` as a
flag; and a flag they leave in `VF`, where `VF` is not the result too, is 0 or 1. -/
def Obligations.FlagAndResultRegistersOnly : Prop :=
  ∀ (i : Instr) (s t : State) (r : Nibble), exec i s = .next t →
    (t.reg r ≠ s.reg r → writesResult i r ∨ (r = 0xF#4 ∧ writesFlag i)) ∧
    (writesFlag i → ¬writesResult i 0xF#4 → faultOfWord s (encode i) = none →
      t.reg 0xF#4 = 0#8 ∨ t.reg 0xF#4 = 1#8)

/-- The keys are read-only to the engine: no cycle changes one, nor the level on `timer_en` (R27). -/
def Obligations.CycleLeavesTheKeys : Prop :=
  ∀ s t : State, step s = .next t → t.keys = s.keys ∧ t.timerEn = s.timerEn

/-- R211: the random input reaches no instruction but `Cxkk`: every other one does the same whatever byte is
presented and whatever the free values are. -/
def Obligations.RandomInputReachesOnlyRnd : Prop :=
  ∀ (i : Instr) (s t : State) (r : Option Byte) (c : Nat), (∀ x kk, i ≠ .rnd x kk) → exec i s = .next t →
    exec i { s with rndIn := r, cycle := c } = .next { t with rndIn := r, cycle := c }

/-- The frame buffer feeds back into no instruction but `Dxyn` (R168): every other one does the same to all
else whatever is on the screen. -/
def Obligations.ScreenFeedsBackOnlyIntoDraw : Prop :=
  ∀ (i : Instr) (s t : State) (f : FrameBuffer), i ≠ .cls → (∀ x y n, i ≠ .drw x y n) → exec i s = .next t →
    exec i (s.setFb f) = .next (t.setFb f)
end

