-- ==== Sys2Proof/Laws/Encoding.lean ====
section
/-! SUPPORT. The fields and formats of R71 and R72 as numbers: what each field of a word is, what a
packed word is, hence every field read from a packed word is the field packed into it, and a word is
packed again from its fields. -/

namespace Sys2Proof

theorem toNat_extract (w : Word) (lo len : Nat) :
    (w.extractLsb' lo len).toNat = w.toNat / 2 ^ lo % 2 ^ len := by
  simp [BitVec.extractLsb'_toNat, Nat.shiftRight_eq_div_pow]

theorem fieldN1_toNat (w : Word) : (fieldN1 w).toNat = w.toNat / 4096 % 16 := toNat_extract w 12 4
theorem fieldX_toNat (w : Word) : (fieldX w).toNat = w.toNat / 256 % 16 := toNat_extract w 8 4
theorem fieldY_toNat (w : Word) : (fieldY w).toNat = w.toNat / 16 % 16 := toNat_extract w 4 4
theorem fieldN_toNat (w : Word) : (fieldN w).toNat = w.toNat % 16 := by
  rw [fieldN, toNat_extract]; simp
theorem fieldKK_toNat (w : Word) : (fieldKK w).toNat = w.toNat % 256 := by
  rw [fieldKK, toNat_extract]; simp
theorem fieldNNN_toNat (w : Word) : (fieldNNN w).toNat = w.toNat % 4096 := by
  rw [fieldNNN, toNat_extract]; simp
theorem highByte_toNat (w : Word) : (highByte w).toNat = w.toNat / 256 % 256 := toNat_extract w 8 8
theorem lowByte_toNat (w : Word) : (lowByte w).toNat = w.toNat % 256 := by
  rw [lowByte, toNat_extract]; simp

theorem toNat_append' {m n : Nat} (a : BitVec m) (b : BitVec n) :
    (a ++ b).toNat = a.toNat * 2 ^ n + b.toNat := by
  rw [BitVec.toNat_append, ← Nat.shiftLeft_add_eq_or_of_lt b.isLt, Nat.shiftLeft_eq]

theorem packNNN_toNat (f : Nibble) (nnn : Addr12) : (packNNN f nnn).toNat = f.toNat * 4096 + nnn.toNat :=
  toNat_append' f nnn

theorem packXKK_toNat (f x : Nibble) (kk : Byte) :
    (packXKK f x kk).toNat = (f.toNat * 16 + x.toNat) * 256 + kk.toNat := by
  rw [← show (f ++ x).toNat = f.toNat * 16 + x.toNat from toNat_append' f x]
  exact toNat_append' (f ++ x) kk

theorem packXYN_toNat (f x y n : Nibble) :
    (packXYN f x y n).toNat = ((f.toNat * 16 + x.toNat) * 16 + y.toNat) * 16 + n.toNat := by
  rw [← show (f ++ x).toNat = f.toNat * 16 + x.toNat from toNat_append' f x,
    ← show (f ++ x ++ y).toNat = (f ++ x).toNat * 16 + y.toNat from toNat_append' (f ++ x) y]
  exact toNat_append' (f ++ x ++ y) n

theorem wordOfBytes_toNat (hi lo : Byte) : (wordOfBytes hi lo).toNat = hi.toNat * 256 + lo.toNat :=
  toNat_append' hi lo

@[simp] theorem fieldN1_packNNN (f : Nibble) (nnn : Addr12) : fieldN1 (packNNN f nnn) = f := by
  apply BitVec.eq_of_toNat_eq; have := f.isLt; have := nnn.isLt
  rw [fieldN1_toNat, packNNN_toNat]; omega

@[simp] theorem fieldNNN_packNNN (f : Nibble) (nnn : Addr12) : fieldNNN (packNNN f nnn) = nnn := by
  apply BitVec.eq_of_toNat_eq; have := f.isLt; have := nnn.isLt
  rw [fieldNNN_toNat, packNNN_toNat]; omega

@[simp] theorem fieldN1_packXKK (f x : Nibble) (kk : Byte) : fieldN1 (packXKK f x kk) = f := by
  apply BitVec.eq_of_toNat_eq; have := f.isLt; have := x.isLt; have := kk.isLt
  rw [fieldN1_toNat, packXKK_toNat]; omega

@[simp] theorem fieldX_packXKK (f x : Nibble) (kk : Byte) : fieldX (packXKK f x kk) = x := by
  apply BitVec.eq_of_toNat_eq; have := f.isLt; have := x.isLt; have := kk.isLt
  rw [fieldX_toNat, packXKK_toNat]; omega

@[simp] theorem fieldKK_packXKK (f x : Nibble) (kk : Byte) : fieldKK (packXKK f x kk) = kk := by
  apply BitVec.eq_of_toNat_eq; have := f.isLt; have := x.isLt; have := kk.isLt
  rw [fieldKK_toNat, packXKK_toNat]; omega

@[simp] theorem fieldN1_packXYN (f x y n : Nibble) : fieldN1 (packXYN f x y n) = f := by
  apply BitVec.eq_of_toNat_eq
  have := f.isLt; have := x.isLt; have := y.isLt; have := n.isLt
  rw [fieldN1_toNat, packXYN_toNat]; omega

@[simp] theorem fieldX_packXYN (f x y n : Nibble) : fieldX (packXYN f x y n) = x := by
  apply BitVec.eq_of_toNat_eq
  have := f.isLt; have := x.isLt; have := y.isLt; have := n.isLt
  rw [fieldX_toNat, packXYN_toNat]; omega

@[simp] theorem fieldY_packXYN (f x y n : Nibble) : fieldY (packXYN f x y n) = y := by
  apply BitVec.eq_of_toNat_eq
  have := f.isLt; have := x.isLt; have := y.isLt; have := n.isLt
  rw [fieldY_toNat, packXYN_toNat]; omega

@[simp] theorem fieldN_packXYN (f x y n : Nibble) : fieldN (packXYN f x y n) = n := by
  apply BitVec.eq_of_toNat_eq
  have := f.isLt; have := x.isLt; have := y.isLt; have := n.isLt
  rw [fieldN_toNat, packXYN_toNat]; omega

/-- A word is packed again from its family and `nnn`. -/
theorem packNNN_fields (w : Word) : packNNN (fieldN1 w) (fieldNNN w) = w := by
  apply BitVec.eq_of_toNat_eq; have := w.isLt
  rw [packNNN_toNat, fieldN1_toNat, fieldNNN_toNat]; omega

/-- A word is packed again from its family, `x` and `kk`. -/
theorem packXKK_fields (w : Word) : packXKK (fieldN1 w) (fieldX w) (fieldKK w) = w := by
  apply BitVec.eq_of_toNat_eq; have := w.isLt
  rw [packXKK_toNat, fieldN1_toNat, fieldX_toNat, fieldKK_toNat]; omega

/-- A word is packed again from its four nibbles. -/
theorem packXYN_fields (w : Word) : packXYN (fieldN1 w) (fieldX w) (fieldY w) (fieldN w) = w := by
  apply BitVec.eq_of_toNat_eq; have := w.isLt
  rw [packXYN_toNat, fieldN1_toNat, fieldX_toNat, fieldY_toNat, fieldN_toNat]; omega

/-- A word is assembled again from its two bytes (R70). -/
@[simp] theorem wordOfBytes_split (w : Word) : wordOfBytes (highByte w) (lowByte w) = w := by
  apply BitVec.eq_of_toNat_eq; have := w.isLt
  rw [wordOfBytes_toNat, highByte_toNat, lowByte_toNat]; omega

@[simp] theorem highByte_wordOfBytes (hi lo : Byte) : highByte (wordOfBytes hi lo) = hi := by
  apply BitVec.eq_of_toNat_eq; have := hi.isLt; have := lo.isLt
  rw [highByte_toNat, wordOfBytes_toNat]; omega

@[simp] theorem lowByte_wordOfBytes (hi lo : Byte) : lowByte (wordOfBytes hi lo) = lo := by
  apply BitVec.eq_of_toNat_eq; have := hi.isLt; have := lo.isLt
  rw [lowByte_toNat, wordOfBytes_toNat]; omega

/-- AND works nibble by nibble. -/
theorem packXYN_and (a b c d a' b' c' d' : Nibble) :
    packXYN a b c d &&& packXYN a' b' c' d' = packXYN (a &&& a') (b &&& b') (c &&& c') (d &&& d') := by
  unfold packXYN
  rw [BitVec.and_append, BitVec.and_append, BitVec.and_append]

theorem packXYN_inj {a b c d a' b' c' d' : Nibble} :
    packXYN a b c d = packXYN a' b' c' d' ↔ a = a' ∧ b = b' ∧ c = c' ∧ d = d' := by
  constructor
  · intro h
    exact ⟨by simpa using congrArg fieldN1 h, by simpa using congrArg fieldX h,
      by simpa using congrArg fieldY h, by simpa using congrArg fieldN h⟩
  · rintro ⟨rfl, rfl, rfl, rfl⟩; rfl

theorem nibble_and_F (a : Nibble) : a &&& 0xF#4 = a := by revert a; decide

/-- The family, as the opcode map R74 masks it. -/
theorem and_F000 (w : Word) : w &&& 0xF000#16 = packXYN (fieldN1 w) 0#4 0#4 0#4 := by
  conv => lhs; rw [← packXYN_fields w, show 0xF000#16 = packXYN 0xF#4 0#4 0#4 0#4 from by decide, packXYN_and]
  simp only [nibble_and_F, BitVec.and_zero]

/-- The family and the last nibble, as R74 masks them. -/
theorem and_F00F (w : Word) : w &&& 0xF00F#16 = packXYN (fieldN1 w) 0#4 0#4 (fieldN w) := by
  conv => lhs; rw [← packXYN_fields w, show 0xF00F#16 = packXYN 0xF#4 0#4 0#4 0xF#4 from by decide, packXYN_and]
  simp only [nibble_and_F, BitVec.and_zero]

/-- The last nibble. -/
theorem and_000F (w : Word) : w &&& 0x000F#16 = packXYN 0#4 0#4 0#4 (fieldN w) := by
  conv => lhs; rw [← packXYN_fields w, show 0x000F#16 = packXYN 0#4 0#4 0#4 0xF#4 from by decide, packXYN_and]
  simp only [nibble_and_F, BitVec.and_zero]

/-- The low byte from its two nibbles. -/
theorem packXYN_low (f x : Nibble) (w : Word) :
    packXYN f x (fieldY w) (fieldN w) = packXKK f x (fieldKK w) := by
  apply BitVec.eq_of_toNat_eq
  rw [packXYN_toNat, packXKK_toNat, fieldY_toNat, fieldN_toNat, fieldKK_toNat]; omega

/-- The family and the low byte, as R74 masks them. -/
theorem and_F0FF (w : Word) : w &&& 0xF0FF#16 = packXKK (fieldN1 w) 0#4 (fieldKK w) := by
  conv => lhs; rw [← packXYN_fields w, show 0xF0FF#16 = packXYN 0xF#4 0#4 0xF#4 0xF#4 from by decide, packXYN_and]
  simp only [nibble_and_F, BitVec.and_zero, packXYN_low]

/-- The low byte. -/
theorem and_00FF (w : Word) : w &&& 0x00FF#16 = packXKK 0#4 0#4 (fieldKK w) := by
  conv => lhs; rw [← packXYN_fields w, show 0x00FF#16 = packXYN 0#4 0#4 0xF#4 0xF#4 from by decide, packXYN_and]
  simp only [nibble_and_F, BitVec.and_zero, packXYN_low]

theorem packXKK_inj {a b a' b' : Nibble} {k k' : Byte} :
    packXKK a b k = packXKK a' b' k' ↔ a = a' ∧ b = b' ∧ k = k' := by
  constructor
  · intro h
    exact ⟨by simpa using congrArg fieldN1 h, by simpa using congrArg fieldX h, by simpa using congrArg fieldKK h⟩
  · rintro ⟨rfl, rfl, rfl⟩; rfl

theorem packNNN_inj {a a' : Nibble} {k k' : Addr12} : packNNN a k = packNNN a' k' ↔ a = a' ∧ k = k' := by
  constructor
  · intro h
    exact ⟨by simpa using congrArg fieldN1 h, by simpa using congrArg fieldNNN h⟩
  · rintro ⟨rfl, rfl⟩; rfl

/-! The decoder, family by family. -/

variable {w : Word}

theorem decodeWord_family0 (h : fieldN1 w = 0x0#4) :
    decodeWord w = .ok (decodeFixed w) := by
  unfold decodeWord; rw [h]; rfl

theorem decodeWord_family1 (h : fieldN1 w = 0x1#4) :
    decodeWord w = .ok (.jp (fieldNNN w)) := by
  unfold decodeWord; rw [h]; rfl

theorem decodeWord_family2 (h : fieldN1 w = 0x2#4) :
    decodeWord w = .ok (.call (fieldNNN w)) := by
  unfold decodeWord; rw [h]; rfl

theorem decodeWord_family3 (h : fieldN1 w = 0x3#4) :
    decodeWord w = .ok (.seImm (fieldX w) (fieldKK w)) := by
  unfold decodeWord; rw [h]; rfl

theorem decodeWord_family4 (h : fieldN1 w = 0x4#4) :
    decodeWord w = .ok (.sneImm (fieldX w) (fieldKK w)) := by
  unfold decodeWord; rw [h]; rfl

theorem decodeWord_family5 (h : fieldN1 w = 0x5#4) :
    decodeWord w = if fieldN w = 0#4 then .ok (.seReg (fieldX w) (fieldY w)) else .error (.family5 (fieldN w)) := by
  unfold decodeWord; rw [h]; rfl

theorem decodeWord_family6 (h : fieldN1 w = 0x6#4) :
    decodeWord w = .ok (.ldImm (fieldX w) (fieldKK w)) := by
  unfold decodeWord; rw [h]; rfl

theorem decodeWord_family7 (h : fieldN1 w = 0x7#4) :
    decodeWord w = .ok (.addImm (fieldX w) (fieldKK w)) := by
  unfold decodeWord; rw [h]; rfl

theorem decodeWord_family8 (h : fieldN1 w = 0x8#4) :
    decodeWord w = decodeAlu (fieldX w) (fieldY w) (fieldN w) := by
  unfold decodeWord; rw [h]; rfl

theorem decodeWord_family9 (h : fieldN1 w = 0x9#4) :
    decodeWord w = if fieldN w = 0#4 then .ok (.sneReg (fieldX w) (fieldY w)) else .error (.family9 (fieldN w)) := by
  unfold decodeWord; rw [h]; rfl

theorem decodeWord_familyA (h : fieldN1 w = 0xA#4) :
    decodeWord w = .ok (.ldI (fieldNNN w)) := by
  unfold decodeWord; rw [h]; rfl

theorem decodeWord_familyB (h : fieldN1 w = 0xB#4) :
    decodeWord w = .ok (.jpV0 (fieldNNN w)) := by
  unfold decodeWord; rw [h]; rfl

theorem decodeWord_familyC (h : fieldN1 w = 0xC#4) :
    decodeWord w = .ok (.rnd (fieldX w) (fieldKK w)) := by
  unfold decodeWord; rw [h]; rfl

theorem decodeWord_familyD (h : fieldN1 w = 0xD#4) :
    decodeWord w = .ok (.drw (fieldX w) (fieldY w) (fieldN w)) := by
  unfold decodeWord; rw [h]; rfl

theorem decodeWord_familyE (h : fieldN1 w = 0xE#4) :
    decodeWord w = decodeKey (fieldX w) (fieldKK w) := by
  unfold decodeWord; rw [h]; rfl

theorem decodeWord_familyF (h : fieldN1 w = 0xF#4) :
    decodeWord w = decodeMisc (fieldX w) (fieldKK w) := by
  unfold decodeWord; rw [h]; rfl

/-- Every word is of one of the sixteen families. -/
theorem family_cases (w : Word) :
    fieldN1 w = 0x0#4 ∨ fieldN1 w = 0x1#4 ∨ fieldN1 w = 0x2#4 ∨ fieldN1 w = 0x3#4 ∨ fieldN1 w = 0x4#4 ∨
    fieldN1 w = 0x5#4 ∨ fieldN1 w = 0x6#4 ∨ fieldN1 w = 0x7#4 ∨ fieldN1 w = 0x8#4 ∨ fieldN1 w = 0x9#4 ∨
    fieldN1 w = 0xA#4 ∨ fieldN1 w = 0xB#4 ∨ fieldN1 w = 0xC#4 ∨ fieldN1 w = 0xD#4 ∨ fieldN1 w = 0xE#4 ∨
    fieldN1 w = 0xF#4 := by
  generalize fieldN1 w = a
  revert a; decide

/-- What family 8 decodes to, by the last nibble. -/
theorem decodeAlu_ok {x y n4 : Nibble} {i : Instr} (h : decodeAlu x y n4 = .ok i) :
    encode i = packXYN 0x8#4 x y n4 ∧ i.wellFormed = true := by
  unfold decodeAlu at h
  split at h <;> cases h <;> exact ⟨rfl, rfl⟩

/-- What family E decodes to, by the low byte. -/
theorem decodeKey_ok {x : Nibble} {kk : Byte} {i : Instr} (h : decodeKey x kk = .ok i) :
    encode i = packXKK 0xE#4 x kk ∧ i.wellFormed = true := by
  unfold decodeKey at h
  split at h <;> cases h <;> exact ⟨rfl, rfl⟩

/-- What family F decodes to, by the low byte. -/
theorem decodeMisc_ok {x : Nibble} {kk : Byte} {i : Instr} (h : decodeMisc x kk = .ok i) :
    encode i = packXKK 0xF#4 x kk ∧ i.wellFormed = true := by
  unfold decodeMisc at h
  split at h <;> cases h <;> exact ⟨rfl, rfl⟩

/-- A masked word equals a match value of R74 exactly when the fields under the mask do. -/
theorem mask_F000_iff {f : Nibble} : w &&& 0xF000#16 = packXYN f 0#4 0#4 0#4 ↔ fieldN1 w = f := by
  rw [and_F000, packXYN_inj]; simp

theorem mask_F00F_iff {f n : Nibble} :
    w &&& 0xF00F#16 = packXYN f 0#4 0#4 n ↔ fieldN1 w = f ∧ fieldN w = n := by
  rw [and_F00F, packXYN_inj]; simp

theorem mask_F0FF_iff {f : Nibble} {k : Byte} :
    w &&& 0xF0FF#16 = packXKK f 0#4 k ↔ fieldN1 w = f ∧ fieldKK w = k := by
  rw [and_F0FF, packXKK_inj]; simp

theorem mask_000F_iff {n : Nibble} : w &&& 0x000F#16 = packXYN 0#4 0#4 0#4 n ↔ fieldN w = n := by
  rw [and_000F, packXYN_inj]; simp

theorem mask_00FF_iff {k : Byte} : w &&& 0x00FF#16 = packXKK 0#4 0#4 k ↔ fieldKK w = k := by
  rw [and_00FF, packXKK_inj]; simp

end Sys2Proof
end

