-- ==== Sys2Proof/Laws/Faults.lean ====
section
/-! SUPPORT. The illegal words of R75 and the faults of R191 to R194 read from a word's fields instead of
its masks, so that no proof about faults computes with masks. -/

namespace Sys2Proof.Machine

/-- The illegal words by their fields. -/
theorem illegalWord_iff (w : Word) : illegalWord w = true ↔
    (fieldN1 w = 0x0#4 ∧ w ≠ 0x00E0#16 ∧ w ≠ 0x00EE#16) ∨
    (fieldN1 w = 0x5#4 ∧ fieldN w ≠ 0x0#4) ∨
    (fieldN1 w = 0x8#4 ∧ fieldN w ∈ [0x8#4, 0x9#4, 0xA#4, 0xB#4, 0xC#4, 0xD#4, 0xF#4]) ∨
    (fieldN1 w = 0x9#4 ∧ fieldN w ≠ 0x0#4) ∨
    (fieldN1 w = 0xE#4 ∧ fieldKK w ∉ [0x9E#8, 0xA1#8]) ∨
    (fieldN1 w = 0xF#4 ∧
      fieldKK w ∉ [0x07#8, 0x0A#8, 0x15#8, 0x18#8, 0x1E#8, 0x29#8, 0x33#8, 0x55#8, 0x65#8]) := by
  have f0 : w &&& 0xF000#16 = 0x0000#16 ↔ fieldN1 w = 0x0#4 := mask_F000_iff (f := 0x0#4)
  have f5 : w &&& 0xF000#16 = 0x5000#16 ↔ fieldN1 w = 0x5#4 := mask_F000_iff (f := 0x5#4)
  have f8 : w &&& 0xF000#16 = 0x8000#16 ↔ fieldN1 w = 0x8#4 := mask_F000_iff (f := 0x8#4)
  have f9 : w &&& 0xF000#16 = 0x9000#16 ↔ fieldN1 w = 0x9#4 := mask_F000_iff (f := 0x9#4)
  have fE : w &&& 0xF000#16 = 0xE000#16 ↔ fieldN1 w = 0xE#4 := mask_F000_iff (f := 0xE#4)
  have fF : w &&& 0xF000#16 = 0xF000#16 ↔ fieldN1 w = 0xF#4 := mask_F000_iff (f := 0xF#4)
  have n0 : w &&& 0x000F#16 = 0x0#16 ↔ fieldN w = 0x0#4 := mask_000F_iff (n := 0x0#4)
  have n8 : w &&& 0x000F#16 = 0x8#16 ↔ fieldN w = 0x8#4 := mask_000F_iff (n := 0x8#4)
  have n9 : w &&& 0x000F#16 = 0x9#16 ↔ fieldN w = 0x9#4 := mask_000F_iff (n := 0x9#4)
  have nA : w &&& 0x000F#16 = 0xA#16 ↔ fieldN w = 0xA#4 := mask_000F_iff (n := 0xA#4)
  have nB : w &&& 0x000F#16 = 0xB#16 ↔ fieldN w = 0xB#4 := mask_000F_iff (n := 0xB#4)
  have nC : w &&& 0x000F#16 = 0xC#16 ↔ fieldN w = 0xC#4 := mask_000F_iff (n := 0xC#4)
  have nD : w &&& 0x000F#16 = 0xD#16 ↔ fieldN w = 0xD#4 := mask_000F_iff (n := 0xD#4)
  have nF : w &&& 0x000F#16 = 0xF#16 ↔ fieldN w = 0xF#4 := mask_000F_iff (n := 0xF#4)
  have k9E : w &&& 0x00FF#16 = 0x9E#16 ↔ fieldKK w = 0x9E#8 := mask_00FF_iff (k := 0x9E#8)
  have kA1 : w &&& 0x00FF#16 = 0xA1#16 ↔ fieldKK w = 0xA1#8 := mask_00FF_iff (k := 0xA1#8)
  have k07 : w &&& 0x00FF#16 = 0x07#16 ↔ fieldKK w = 0x07#8 := mask_00FF_iff (k := 0x07#8)
  have k0A : w &&& 0x00FF#16 = 0x0A#16 ↔ fieldKK w = 0x0A#8 := mask_00FF_iff (k := 0x0A#8)
  have k15 : w &&& 0x00FF#16 = 0x15#16 ↔ fieldKK w = 0x15#8 := mask_00FF_iff (k := 0x15#8)
  have k18 : w &&& 0x00FF#16 = 0x18#16 ↔ fieldKK w = 0x18#8 := mask_00FF_iff (k := 0x18#8)
  have k1E : w &&& 0x00FF#16 = 0x1E#16 ↔ fieldKK w = 0x1E#8 := mask_00FF_iff (k := 0x1E#8)
  have k29 : w &&& 0x00FF#16 = 0x29#16 ↔ fieldKK w = 0x29#8 := mask_00FF_iff (k := 0x29#8)
  have k33 : w &&& 0x00FF#16 = 0x33#16 ↔ fieldKK w = 0x33#8 := mask_00FF_iff (k := 0x33#8)
  have k55 : w &&& 0x00FF#16 = 0x55#16 ↔ fieldKK w = 0x55#8 := mask_00FF_iff (k := 0x55#8)
  have k65 : w &&& 0x00FF#16 = 0x65#16 ↔ fieldKK w = 0x65#8 := mask_00FF_iff (k := 0x65#8)
  simp only [illegalWord, decide_eq_true_eq, List.mem_cons, List.not_mem_nil, or_false, not_or, ne_eq,
    f0, f5, f8, f9, fE, fF, n0, n8, n9, nA, nB, nC, nD, nF, k9E, kA1, k07, k0A, k15, k18, k1E, k29, k33, k55, k65]

/-- The fault of a word by its fields. -/
theorem faultOfWord_eq (s : State) (w : Word) : faultOfWord s w =
    if illegalWord w then some .unsupportedInstruction
    else if w = 0x00EE#16 ∧ s.sp.val = 0 then some .stackUnderflow
    else if fieldN1 w = 0x2#4 ∧ s.sp.val = 12 then some .stackOverflow
    else if (fieldN1 w = 0xF#4 ∧ fieldKK w = 0x33#8) ∧ s.i.toNat + 2 > 0xFFF then some .memoryOutOfRange
    else if ((fieldN1 w = 0xF#4 ∧ fieldKK w = 0x55#8) ∨ (fieldN1 w = 0xF#4 ∧ fieldKK w = 0x65#8)) ∧
        s.i.toNat + (fieldX w).toNat > 0xFFF then some .memoryOutOfRange
    else if fieldN1 w = 0xD#4 ∧ (fieldN w).toNat > 0 ∧ s.i.toNat + (fieldN w).toNat - 1 > 0xFFF then
      some .memoryOutOfRange
    else if ((fieldN1 w = 0xE#4 ∧ fieldKK w = 0x9E#8) ∨ (fieldN1 w = 0xE#4 ∧ fieldKK w = 0xA1#8)) ∧
        (s.reg (fieldX w)).toNat > 15 then some .unsupportedInstruction
    else none := by
  have f2 : w &&& 0xF000#16 = 0x2000#16 ↔ fieldN1 w = 0x2#4 := mask_F000_iff (f := 0x2#4)
  have fD : w &&& 0xF000#16 = 0xD000#16 ↔ fieldN1 w = 0xD#4 := mask_F000_iff (f := 0xD#4)
  have k33 : w &&& 0xF0FF#16 = 0xF033#16 ↔ fieldN1 w = 0xF#4 ∧ fieldKK w = 0x33#8 := mask_F0FF_iff (f := 0xF#4) (k := 0x33#8)
  have k55 : w &&& 0xF0FF#16 = 0xF055#16 ↔ fieldN1 w = 0xF#4 ∧ fieldKK w = 0x55#8 := mask_F0FF_iff (f := 0xF#4) (k := 0x55#8)
  have k65 : w &&& 0xF0FF#16 = 0xF065#16 ↔ fieldN1 w = 0xF#4 ∧ fieldKK w = 0x65#8 := mask_F0FF_iff (f := 0xF#4) (k := 0x65#8)
  have k9E : w &&& 0xF0FF#16 = 0xE09E#16 ↔ fieldN1 w = 0xE#4 ∧ fieldKK w = 0x9E#8 := mask_F0FF_iff (f := 0xE#4) (k := 0x9E#8)
  have kA1 : w &&& 0xF0FF#16 = 0xE0A1#16 ↔ fieldN1 w = 0xE#4 ∧ fieldKK w = 0xA1#8 := mask_F0FF_iff (f := 0xE#4) (k := 0xA1#8)
  simp only [faultOfWord, f2, fD, k33, k55, k65, k9E, kA1]
  rfl

/-- The fault that is due depends on `PC`, `V`, `MEM`, `I` and `SP` alone. -/
theorem State.faultDue_congr {s t : State} (h1 : t.pc = s.pc) (h2 : t.v = s.v) (h3 : t.mem = s.mem)
    (h4 : t.i = s.i) (h5 : t.sp = s.sp) : t.faultDue = s.faultDue := by
  cases s; cases t; subst h1 h2 h3 h4 h5; rfl

/-- All sixteen registers unchanged is `V` unchanged. -/
theorem KeepsRegsBut_nil {s t : State} (h : KeepsRegsBut [] s t) : t.v = s.v := by
  apply Vector.ext
  intro k hk
  have := h (BitVec.ofNat 4 k) (by simp)
  simpa [State.reg, Nat.mod_eq_of_lt hk] using this

end Sys2Proof.Machine
end

