-- ==== Sys2Proof/Laws/FrameBuffer.lean ====
section
/-! SUPPORT. The laws of the frame buffer: one cell written, and what the sprite blit does to every cell
and to `hit` (R166, R168), so that no proof unfolds its loops. -/

namespace Sys2Proof.Machine

theorem FrameBuffer.cell_of_lt (fb : FrameBuffer) (row col : Nat) (h1 : row < 32) (h2 : col < 64) :
    FrameBuffer.cell fb row col = fb[row][col] := by
  simp [FrameBuffer.cell, h1, h2]

theorem FrameBuffer.cell_outside (fb : FrameBuffer) (row col : Nat) (h : ¬(row < 32 ∧ col < 64)) :
    FrameBuffer.cell fb row col = false := by
  simp only [FrameBuffer.cell, dif_neg h]

@[simp] theorem FrameBuffer.cell_dark (row col : Nat) : FrameBuffer.cell FrameBuffer.dark row col = false := by
  simp [FrameBuffer.cell, FrameBuffer.dark]

/-- A cell after one cell inside the grid is written. -/
theorem FrameBuffer.cell_setCell (fb : FrameBuffer) (r c row col : Nat) (b : Bool) (h : r < 32 ∧ c < 64) :
    FrameBuffer.cell (FrameBuffer.setCell fb r c b) row col =
      if row = r ∧ col = c then b else FrameBuffer.cell fb row col := by
  by_cases hg : row < 32 ∧ col < 64
  · simp only [FrameBuffer.cell, FrameBuffer.setCell, dif_pos h, dif_pos hg, Vector.getElem_set]
    by_cases hr : r = row
    · subst hr
      by_cases hc : c = col
      · subst hc; simp
      · have : col ≠ c := fun e => hc e.symm
        simp [hc, this]
    · have : row ≠ r := fun e => hr e.symm
      simp [hr, this]
  · have : ¬(row = r ∧ col = c) := by omega
    simp only [FrameBuffer.cell, dif_neg hg, if_neg this]

/-- Two frame buffers with the same cells are equal. -/
theorem FrameBuffer.ext_cell (f g : FrameBuffer)
    (h : ∀ row col, row < 32 → col < 64 → FrameBuffer.cell f row col = FrameBuffer.cell g row col) : f = g := by
  apply Vector.ext
  intro row hr
  apply Vector.ext
  intro col hc
  have := h row col hr hc
  rwa [FrameBuffer.cell_of_lt f row col hr hc, FrameBuffer.cell_of_lt g row col hr hc] at this

theorem drawBit_cell (X Y : Nat) (bit : Bool) (acc : FrameBuffer × Bool) (row col : Nat) :
    FrameBuffer.cell (drawBit X Y bit acc).1 row col =
      (FrameBuffer.cell acc.1 row col ^^ (bit && decide (row < 32 ∧ col < 64 ∧ row = Y ∧ col = X))) := by
  unfold drawBit
  split
  · next h =>
    obtain ⟨hb, hx, hy⟩ := h
    rw [FrameBuffer.cell_setCell _ _ _ _ _ _ (by omega)]
    by_cases e : row = Y ∧ col = X
    · obtain ⟨rfl, rfl⟩ := e
      simp [hb, show row < 32 by omega, show col < 64 by omega]
    · rw [if_neg e]
      have : ¬(row < 32 ∧ col < 64 ∧ row = Y ∧ col = X) := fun h => e h.2.2
      simp [this]
  · next h =>
    cases bit
    · simp
    · have : ¬(row < 32 ∧ col < 64 ∧ row = Y ∧ col = X) := by
        rintro ⟨h1, h2, rfl, rfl⟩; exact h ⟨rfl, by omega, by omega⟩
      simp [this]

theorem drawBit_hit (X Y : Nat) (bit : Bool) (acc : FrameBuffer × Bool) :
    (drawBit X Y bit acc).2 = (acc.2 || (bit && FrameBuffer.cell acc.1 Y X)) := by
  unfold drawBit
  split
  · next h => simp [h.1]
  · next h =>
    cases bit
    · simp
    · have : ¬(Y < 32 ∧ X < 64) := by intro hh; exact h ⟨rfl, by omega, by omega⟩
      simp [FrameBuffer.cell_outside _ _ _ this]

theorem drawColumns_cell (px Y : Nat) (b : Byte) (k : Nat) (acc : FrameBuffer × Bool) (row col : Nat) :
    FrameBuffer.cell (drawColumns px Y b k acc).1 row col =
      (FrameBuffer.cell acc.1 row col ^^
        (decide (row < 32 ∧ col < 64 ∧ row = Y ∧ px ≤ col ∧ col < px + k) && spriteColumn b (col - px))) := by
  induction k with
  | zero =>
    have : ¬(row < 32 ∧ col < 64 ∧ row = Y ∧ px ≤ col ∧ col < px + 0) := by omega
    simp only [drawColumns, this, decide_false, Bool.false_and, Bool.xor_false]
  | succ k ih =>
    rw [drawColumns, drawBit_cell, ih]
    by_cases h : col = px + k
    · subst h
      have h1 : ¬(row < 32 ∧ px + k < 64 ∧ row = Y ∧ px ≤ px + k ∧ px + k < px + k) := by omega
      simp only [h1, decide_false, Bool.false_and, Bool.xor_false]
      rw [show px + k - px = k by omega, Bool.and_comm (spriteColumn b k)]
      congr 2
      simp
    · have h1 : ¬(row < 32 ∧ col < 64 ∧ row = Y ∧ col = px + k) := by omega
      simp only [h1, decide_false, Bool.and_false, Bool.xor_false]
      congr 2
      simp only [decide_eq_decide]
      omega

theorem drawColumns_hit (px Y : Nat) (b : Byte) (k : Nat) (acc : FrameBuffer × Bool) :
    (drawColumns px Y b k acc).2 = true ↔
      acc.2 = true ∨ ∃ c, c < k ∧ spriteColumn b c = true ∧ FrameBuffer.cell acc.1 Y (px + c) = true := by
  induction k with
  | zero => simp [drawColumns]
  | succ k ih =>
    rw [drawColumns, drawBit_hit, drawColumns_cell]
    have h1 : ¬(Y < 32 ∧ px + k < 64 ∧ Y = Y ∧ px ≤ px + k ∧ px + k < px + k) := by omega
    rw [decide_eq_false h1]
    simp only [Bool.false_and, Bool.xor_false, Bool.or_eq_true, Bool.and_eq_true, ih]
    constructor
    · rintro ((h | ⟨c, hc, h⟩) | h)
      · exact .inl h
      · exact .inr ⟨c, by omega, h⟩
      · exact .inr ⟨k, by omega, h⟩
    · rintro (h | ⟨c, hc, h⟩)
      · exact .inl (.inl h)
      · by_cases e : c = k
        · subst e; exact .inr h
        · exact .inl (.inr ⟨c, by omega, h⟩)

theorem drawRows_cell (px Y : Nat) (rows : List Byte) (acc : FrameBuffer × Bool) (row col : Nat) :
    FrameBuffer.cell (drawRows px Y rows acc).1 row col =
      (FrameBuffer.cell acc.1 row col ^^ spriteBitAt px Y rows row col) := by
  induction rows generalizing Y acc with
  | nil => simp [drawRows, spriteBitAt]
  | cons b bs ih =>
    rw [drawRows, ih, drawColumns_cell]
    by_cases h : row = Y
    · subst h
      have h2 : ¬(row < 32 ∧ col < 64 ∧ px ≤ col ∧ col < px + 8 ∧ row + 1 ≤ row) := by omega
      simp only [spriteBitAt, h2, decide_false, Bool.false_and, Bool.xor_false, Nat.sub_self,
        List.getElem?_cons_zero]
      congr 2
      simp
    · have h1 : ¬(row < 32 ∧ col < 64 ∧ row = Y ∧ px ≤ col ∧ col < px + 8) := by omega
      simp only [h1, decide_false, Bool.false_and, Bool.xor_false, spriteBitAt]
      by_cases h3 : Y + 1 ≤ row
      · have h4 : row - Y = (row - (Y + 1)) + 1 := by omega
        rw [h4, List.getElem?_cons_succ]
        congr 2
        simp only [decide_eq_decide]
        omega
      · have h5 : ¬(row < 32 ∧ col < 64 ∧ px ≤ col ∧ col < px + 8 ∧ Y + 1 ≤ row) := by omega
        have h6 : ¬(row < 32 ∧ col < 64 ∧ px ≤ col ∧ col < px + 8 ∧ Y ≤ row) := by omega
        rw [decide_eq_false h5, decide_eq_false h6]
        simp

theorem drawRows_hit (px Y : Nat) (rows : List Byte) (acc : FrameBuffer × Bool) :
    (drawRows px Y rows acc).2 = true ↔
      acc.2 = true ∨ ∃ row col, spriteBitAt px Y rows row col = true ∧ FrameBuffer.cell acc.1 row col = true := by
  induction rows generalizing Y acc with
  | nil => simp [drawRows, spriteBitAt]
  | cons b bs ih =>
    rw [drawRows, ih, drawColumns_hit]
    have below : ∀ row col, spriteBitAt px (Y + 1) bs row col = true →
        spriteBitAt px Y (b :: bs) row col = true ∧
          FrameBuffer.cell (drawColumns px Y b 8 acc).1 row col = FrameBuffer.cell acc.1 row col := by
      intro row col h
      simp only [spriteBitAt, Bool.and_eq_true, decide_eq_true_eq] at h
      obtain ⟨⟨h1, h2, h3, h4, h5⟩, h6⟩ := h
      constructor
      · simp only [spriteBitAt, Bool.and_eq_true, decide_eq_true_eq]
        refine ⟨by omega, ?_⟩
        rw [show row - Y = (row - (Y + 1)) + 1 by omega, List.getElem?_cons_succ]
        exact h6
      · rw [drawColumns_cell]
        have : ¬(row < 32 ∧ col < 64 ∧ row = Y ∧ px ≤ col ∧ col < px + 8) := by omega
        simp [this]
    constructor
    · rintro ((h | ⟨c, hc, h1, h2⟩) | ⟨row, col, h1, h2⟩)
      · exact .inl h
      · right
        have hg : Y < 32 ∧ px + c < 64 := by
          by_contra hn
          rw [FrameBuffer.cell_outside _ _ _ hn] at h2
          exact absurd h2 (by decide)
        refine ⟨Y, px + c, ?_, h2⟩
        simp only [spriteBitAt, Bool.and_eq_true, decide_eq_true_eq]
        exact ⟨by omega, by simpa [spriteColumn] using h1⟩
      · obtain ⟨h3, h4⟩ := below row col h1
        exact .inr ⟨row, col, h3, h4 ▸ h2⟩
    · rintro (h | ⟨row, col, h1, h2⟩)
      · exact .inl (.inl h)
      · have h1' := h1
        simp only [spriteBitAt, Bool.and_eq_true, decide_eq_true_eq] at h1
        obtain ⟨⟨hr, hc, h3, h4, h5⟩, h6⟩ := h1
        by_cases e : row = Y
        · subst e
          refine .inl (.inr ⟨col - px, by omega, by simpa [spriteColumn] using h6, ?_⟩)
          rw [show px + (col - px) = col by omega]
          exact h2
        · have h7 : spriteBitAt px (Y + 1) bs row col = true := by
            simp only [spriteBitAt, Bool.and_eq_true, decide_eq_true_eq]
            refine ⟨by omega, ?_⟩
            rw [show row - Y = (row - (Y + 1)) + 1 by omega, List.getElem?_cons_succ] at h6
            exact h6
          exact .inr ⟨row, col, h7, (below row col h7).2 ▸ h2⟩

/-- Every cell after the blit: its old value XOR the sprite bit that addresses it (R168). -/
theorem drawSprite_cell (px py : Nat) (rows : List Byte) (fb : FrameBuffer) (row col : Nat) :
    FrameBuffer.cell (drawSprite px py rows fb).1 row col =
      (FrameBuffer.cell fb row col ^^ spriteBitAt px py rows row col) := by
  simp [drawSprite, drawRows_cell]

/-- The blit hits exactly when a set sprite bit addresses a cell that was on (R166). -/
theorem drawSprite_hit (px py : Nat) (rows : List Byte) (fb : FrameBuffer) :
    (drawSprite px py rows fb).2 = true ↔
      ∃ row col, spriteBitAt px py rows row col = true ∧ FrameBuffer.cell fb row col = true := by
  simp [drawSprite, drawRows_hit]

end Sys2Proof.Machine
end

