-- ==== Sys2Proof/Laws/Memory.lean ====
section
/-! SUPPORT. The laws of memory: a read after a write (R58), runs of bytes (R55), and the canonical form,
which every operation keeps and which makes equal memories equal data. -/

namespace Sys2Proof.Machine

theorem Memory.read_nil (a : Nat) : Memory.read [] a = Memory.base a := rfl

theorem Memory.base_above (a : Nat) (h : 80 ≤ a) : Memory.base a = 0#8 := by
  have hl : fontRom.length = 80 := by decide
  simp [Memory.base, List.getD_eq_getElem?_getD, List.getElem?_eq_none (by omega : fontRom.length ≤ a)]

theorem Memory.read_erase (m : Memory) (a b : Nat) :
    Memory.read (Memory.erase m a) b = if b = a then Memory.base b else Memory.read m b := by
  induction m with
  | nil => simp [Memory.erase, Memory.read]
  | cons c m ih =>
    simp only [Memory.erase] at ih
    by_cases hc : c.1 = a
    · by_cases hb : b = a
      · simp_all [Memory.erase]
      · have : c.1 ≠ b := fun h => hb (h ▸ hc)
        simp_all [Memory.erase, Memory.read]
    · by_cases hb : b = a
      · have : c.1 ≠ b := fun h => hc (h ▸ hb)
        simp_all [Memory.erase, Memory.read]
      · simp_all [Memory.erase, Memory.read]

theorem Memory.mem_erase (m : Memory) (a : Nat) (c : Host.Cell) :
    c ∈ Memory.erase m a ↔ c ∈ m ∧ c.1 ≠ a := by
  simp [Memory.erase]

theorem Memory.read_insert (m : Memory) (a b : Nat) (v : Byte) (h : ∀ c ∈ m, c.1 ≠ a) :
    Memory.read (Memory.insert a v m) b = if b = a then v else Memory.read m b := by
  induction m with
  | nil => simp only [Memory.insert, Memory.read, eq_comm]
  | cons c m ih =>
    have hc : c.1 ≠ a := h c (by simp)
    have ih := ih (fun d hd => h d (by simp [hd]))
    by_cases hlt : a < c.1
    · simp only [Memory.insert, if_pos hlt, Memory.read, eq_comm]
    · simp only [Memory.insert, if_neg hlt, Memory.read, ih]
      by_cases hb : b = a
      · subst hb; simp [hc]
      · simp [hb]

/-- A read after a write, at the same address and at any other. -/
theorem Memory.read_write (m : Memory) (a b : Nat) (v : Byte) :
    Memory.read (Memory.write m a v) b = if b = a then v else Memory.read m b := by
  unfold Memory.write
  split
  · next h => rw [Memory.read_erase]; by_cases hb : b = a <;> simp [hb, h]
  · rw [Memory.read_insert _ _ _ _ (fun c hc => ((Memory.mem_erase m a c).1 hc).2), Memory.read_erase]
    by_cases hb : b = a <;> simp [hb]

theorem Memory.mem_insert (m : Memory) (a : Nat) (v : Byte) (c : Host.Cell) :
    c ∈ Memory.insert a v m ↔ c = (a, v) ∨ c ∈ m := by
  induction m with
  | nil => simp [Memory.insert]
  | cons d m ih =>
    by_cases h : a < d.1 <;> simp [Memory.insert, h, ih]
    tauto

theorem Memory.insert_rising (m : Memory) (a : Nat) (v : Byte) (h : m.Pairwise (fun c d => c.1 < d.1))
    (hne : ∀ c ∈ m, c.1 ≠ a) : (Memory.insert a v m).Pairwise (fun c d => c.1 < d.1) := by
  induction m with
  | nil => simp [Memory.insert]
  | cons d m ih =>
    have hd := List.pairwise_cons.1 h
    have hda : d.1 ≠ a := hne d (by simp)
    by_cases hlt : a < d.1
    · simp only [Memory.insert, hlt, if_true]
      refine List.pairwise_cons.2 ⟨fun e he => ?_, h⟩
      rcases List.mem_cons.1 he with rfl | he
      · exact hlt
      · exact Nat.lt_trans hlt (hd.1 e he)
    · simp only [Memory.insert, hlt, if_false]
      refine List.pairwise_cons.2 ⟨fun e he => ?_, ih hd.2 (fun c hc => hne c (by simp [hc]))⟩
      rcases (Memory.mem_insert m a v e).1 he with rfl | he
      · simp; omega
      · exact hd.1 e he

/-- Writing a byte inside the address space keeps the canonical form. -/
theorem Memory.write_wf (m : Memory) (a : Nat) (v : Byte) (h : Memory.wf m) (ha : a < Config.memSize) :
    Memory.wf (Memory.write m a v) := by
  have hp : (Memory.erase m a).Pairwise (fun c d => c.1 < d.1) := List.Pairwise.filter _ h.1
  unfold Memory.write
  split
  · exact ⟨hp, fun c hc => h.2 c ((Memory.mem_erase m a c).1 hc).1⟩
  · next hv =>
    refine ⟨Memory.insert_rising _ a v hp (fun c hc => ((Memory.mem_erase m a c).1 hc).2), fun c hc => ?_⟩
    rcases (Memory.mem_insert _ a v c).1 hc with rfl | hc
    · exact ⟨ha, hv⟩
    · exact h.2 c ((Memory.mem_erase m a c).1 hc).1

/-- Storing a run of bytes inside the address space keeps the canonical form. -/
theorem Memory.writeRange_wf (m : Memory) (a : Nat) (bs : List Byte) (h : Memory.wf m)
    (ha : a + bs.length ≤ Config.memSize) : Memory.wf (Memory.writeRange m a bs) := by
  induction bs generalizing m a with
  | nil => exact h
  | cons b bs ih =>
    simp only [List.length_cons] at ha
    exact ih _ _ (Memory.write_wf m a b h (by omega)) (by omega)

/-- What a byte reads as after a run of bytes is stored: the byte stored there, else what it was. -/
theorem Memory.read_writeRange (m : Memory) (a : Nat) (bs : List Byte) (b : Nat) :
    Memory.read (Memory.writeRange m a bs) b =
      if h : a ≤ b ∧ b - a < bs.length then bs[b - a]'h.2 else Memory.read m b := by
  induction bs generalizing m a with
  | nil => simp [Memory.writeRange]
  | cons v bs ih =>
    simp only [Memory.writeRange, ih, Memory.read_write, List.length_cons]
    by_cases h1 : b = a
    · subst h1; simp
    · by_cases h2 : a + 1 ≤ b ∧ b - (a + 1) < bs.length
      · have h3 : a ≤ b ∧ b - a < bs.length + 1 := by omega
        have h4 : b - a = (b - (a + 1)) + 1 := by omega
        simp only [h2, h3, and_self, dif_pos]
        simp [h4]
      · have h3 : ¬(a ≤ b ∧ b - a < bs.length + 1) := by omega
        rw [dif_neg h2, dif_neg h3, if_neg h1]

@[simp] theorem Memory.readRange_length (m : Memory) (a n : Nat) : (Memory.readRange m a n).length = n := by
  induction n generalizing a with
  | zero => rfl
  | succ n ih => simp [Memory.readRange, ih]

@[simp] theorem Memory.readRange_getElem (m : Memory) (a n k : Nat) (h : k < (Memory.readRange m a n).length) :
    (Memory.readRange m a n)[k] = Memory.read m (a + k) := by
  induction n generalizing a k with
  | zero => simp at h
  | succ n ih =>
    cases k with
    | zero => simp [Memory.readRange]
    | succ k => simp [Memory.readRange, ih, Nat.add_assoc, Nat.add_comm 1 k]

/-- A run of bytes, address by address. -/
theorem Memory.readRange_eq_map (m : Memory) (a n : Nat) :
    Memory.readRange m a n = (List.range n).map (fun k => Memory.read m (a + k)) := by
  apply List.ext_getElem <;> simp

theorem Memory.read_of_lt_all (m : Memory) (a : Nat) (h : ∀ c ∈ m, a < c.1) :
    Memory.read m a = Memory.base a := by
  induction m with
  | nil => rfl
  | cons c m ih =>
    have := h c (by simp)
    simp only [Memory.read, show c.1 ≠ a by omega, if_false]
    exact ih (fun d hd => h d (by simp [hd]))

/-- Two canonical memories that read alike are the same list. -/
theorem Memory.eq_of_read (m n : Memory) (hm : Memory.wf m) (hn : Memory.wf n)
    (h : ∀ a, Memory.read m a = Memory.read n a) : m = n := by
  induction m generalizing n with
  | nil =>
    cases n with
    | nil => rfl
    | cons d n => have := h d.1; have := (hn.2 d (by simp)).2; simp_all [Memory.read]
  | cons c m ih =>
    cases n with
    | nil => have := h c.1; have := (hm.2 c (by simp)).2; simp_all [Memory.read]
    | cons d n =>
      have hcm := List.pairwise_cons.1 hm.1
      have hdn := List.pairwise_cons.1 hn.1
      have hc := (hm.2 c (by simp)).2
      have hd := (hn.2 d (by simp)).2
      have hcd : c.1 = d.1 := by
        rcases Nat.lt_trichotomy c.1 d.1 with hlt | heq | hlt
        · exfalso
          have h1 := h c.1
          rw [Memory.read_of_lt_all (d :: n) c.1 (by
            intro e he; rcases List.mem_cons.1 he with rfl | he
            · exact hlt
            · exact Nat.lt_trans hlt (hdn.1 e he))] at h1
          simp [Memory.read] at h1; exact hc h1
        · exact heq
        · exfalso
          have h1 := h d.1
          rw [Memory.read_of_lt_all (c :: m) d.1 (by
            intro e he; rcases List.mem_cons.1 he with rfl | he
            · exact hlt
            · exact Nat.lt_trans hlt (hcm.1 e he))] at h1
          simp [Memory.read] at h1; exact hd h1.symm
      have hv : c.2 = d.2 := by have := h c.1; simpa [Memory.read, hcd] using this
      have hcd' : c = d := Prod.ext hcd hv
      subst hcd'
      refine congrArg _ (ih n ⟨hcm.2, fun e he => hm.2 e (by simp [he])⟩ ⟨hdn.2, fun e he => hn.2 e (by simp [he])⟩ ?_)
      intro a
      have h1 := h a
      by_cases ha : c.1 = a
      · rw [Memory.read_of_lt_all m a (fun e he => ha ▸ hcm.1 e he),
          Memory.read_of_lt_all n a (fun e he => ha ▸ hdn.1 e he)]
      · simpa [Memory.read, ha] using h1

/-- The memory after reset has the canonical form. -/
theorem Memory.reset_wf : Memory.wf State.reset.mem := by
  simp [State.reset, Memory.wf]

end Sys2Proof.Machine
end

