-- ==== Sys2Proof/Laws/State.lean ====
section
/-! SUPPORT. What each update of State leaves in each field, once and for all: one lemma per field per
update, so that no proof unfolds a record update. -/

namespace Sys2Proof.Machine

variable (s : State)

@[simp] theorem State.setReg_v (r : Nibble) (b : Byte) : (s.setReg r b).v = s.v.set r.toNat b r.isLt := rfl
@[simp] theorem State.setReg_i (r : Nibble) (b : Byte) : (s.setReg r b).i = s.i := rfl
@[simp] theorem State.setReg_pc (r : Nibble) (b : Byte) : (s.setReg r b).pc = s.pc := rfl
@[simp] theorem State.setReg_sp (r : Nibble) (b : Byte) : (s.setReg r b).sp = s.sp := rfl
@[simp] theorem State.setReg_stack (r : Nibble) (b : Byte) : (s.setReg r b).stack = s.stack := rfl
@[simp] theorem State.setReg_dt (r : Nibble) (b : Byte) : (s.setReg r b).dt = s.dt := rfl
@[simp] theorem State.setReg_st (r : Nibble) (b : Byte) : (s.setReg r b).st = s.st := rfl
@[simp] theorem State.setReg_fb (r : Nibble) (b : Byte) : (s.setReg r b).fb = s.fb := rfl
@[simp] theorem State.setReg_keys (r : Nibble) (b : Byte) : (s.setReg r b).keys = s.keys := rfl
@[simp] theorem State.setReg_mem (r : Nibble) (b : Byte) : (s.setReg r b).mem = s.mem := rfl
@[simp] theorem State.setReg_halt (r : Nibble) (b : Byte) : (s.setReg r b).halt = s.halt := rfl
@[simp] theorem State.setReg_fkind (r : Nibble) (b : Byte) : (s.setReg r b).fkind = s.fkind := rfl
@[simp] theorem State.setReg_fword (r : Nibble) (b : Byte) : (s.setReg r b).fword = s.fword := rfl
@[simp] theorem State.setReg_fpc (r : Nibble) (b : Byte) : (s.setReg r b).fpc = s.fpc := rfl
@[simp] theorem State.setReg_beep (r : Nibble) (b : Byte) : (s.setReg r b).beep = s.beep := rfl
@[simp] theorem State.setReg_timerEn (r : Nibble) (b : Byte) : (s.setReg r b).timerEn = s.timerEn := rfl
@[simp] theorem State.setReg_cycle (r : Nibble) (b : Byte) : (s.setReg r b).cycle = s.cycle := rfl
@[simp] theorem State.setReg_rndIn (r : Nibble) (b : Byte) : (s.setReg r b).rndIn = s.rndIn := rfl

@[simp] theorem State.setI_v (w : Word) : (s.setI w).v = s.v := rfl
@[simp] theorem State.setI_i (w : Word) : (s.setI w).i = w := rfl
@[simp] theorem State.setI_pc (w : Word) : (s.setI w).pc = s.pc := rfl
@[simp] theorem State.setI_sp (w : Word) : (s.setI w).sp = s.sp := rfl
@[simp] theorem State.setI_stack (w : Word) : (s.setI w).stack = s.stack := rfl
@[simp] theorem State.setI_dt (w : Word) : (s.setI w).dt = s.dt := rfl
@[simp] theorem State.setI_st (w : Word) : (s.setI w).st = s.st := rfl
@[simp] theorem State.setI_fb (w : Word) : (s.setI w).fb = s.fb := rfl
@[simp] theorem State.setI_keys (w : Word) : (s.setI w).keys = s.keys := rfl
@[simp] theorem State.setI_mem (w : Word) : (s.setI w).mem = s.mem := rfl
@[simp] theorem State.setI_halt (w : Word) : (s.setI w).halt = s.halt := rfl
@[simp] theorem State.setI_fkind (w : Word) : (s.setI w).fkind = s.fkind := rfl
@[simp] theorem State.setI_fword (w : Word) : (s.setI w).fword = s.fword := rfl
@[simp] theorem State.setI_fpc (w : Word) : (s.setI w).fpc = s.fpc := rfl
@[simp] theorem State.setI_beep (w : Word) : (s.setI w).beep = s.beep := rfl
@[simp] theorem State.setI_timerEn (w : Word) : (s.setI w).timerEn = s.timerEn := rfl
@[simp] theorem State.setI_cycle (w : Word) : (s.setI w).cycle = s.cycle := rfl
@[simp] theorem State.setI_rndIn (w : Word) : (s.setI w).rndIn = s.rndIn := rfl

@[simp] theorem State.setDt_v (b : Byte) : (s.setDt b).v = s.v := rfl
@[simp] theorem State.setDt_i (b : Byte) : (s.setDt b).i = s.i := rfl
@[simp] theorem State.setDt_pc (b : Byte) : (s.setDt b).pc = s.pc := rfl
@[simp] theorem State.setDt_sp (b : Byte) : (s.setDt b).sp = s.sp := rfl
@[simp] theorem State.setDt_stack (b : Byte) : (s.setDt b).stack = s.stack := rfl
@[simp] theorem State.setDt_dt (b : Byte) : (s.setDt b).dt = b := rfl
@[simp] theorem State.setDt_st (b : Byte) : (s.setDt b).st = s.st := rfl
@[simp] theorem State.setDt_fb (b : Byte) : (s.setDt b).fb = s.fb := rfl
@[simp] theorem State.setDt_keys (b : Byte) : (s.setDt b).keys = s.keys := rfl
@[simp] theorem State.setDt_mem (b : Byte) : (s.setDt b).mem = s.mem := rfl
@[simp] theorem State.setDt_halt (b : Byte) : (s.setDt b).halt = s.halt := rfl
@[simp] theorem State.setDt_fkind (b : Byte) : (s.setDt b).fkind = s.fkind := rfl
@[simp] theorem State.setDt_fword (b : Byte) : (s.setDt b).fword = s.fword := rfl
@[simp] theorem State.setDt_fpc (b : Byte) : (s.setDt b).fpc = s.fpc := rfl
@[simp] theorem State.setDt_beep (b : Byte) : (s.setDt b).beep = s.beep := rfl
@[simp] theorem State.setDt_timerEn (b : Byte) : (s.setDt b).timerEn = s.timerEn := rfl
@[simp] theorem State.setDt_cycle (b : Byte) : (s.setDt b).cycle = s.cycle := rfl
@[simp] theorem State.setDt_rndIn (b : Byte) : (s.setDt b).rndIn = s.rndIn := rfl

@[simp] theorem State.setSt_v (b : Byte) : (s.setSt b).v = s.v := rfl
@[simp] theorem State.setSt_i (b : Byte) : (s.setSt b).i = s.i := rfl
@[simp] theorem State.setSt_pc (b : Byte) : (s.setSt b).pc = s.pc := rfl
@[simp] theorem State.setSt_sp (b : Byte) : (s.setSt b).sp = s.sp := rfl
@[simp] theorem State.setSt_stack (b : Byte) : (s.setSt b).stack = s.stack := rfl
@[simp] theorem State.setSt_dt (b : Byte) : (s.setSt b).dt = s.dt := rfl
@[simp] theorem State.setSt_st (b : Byte) : (s.setSt b).st = b := rfl
@[simp] theorem State.setSt_fb (b : Byte) : (s.setSt b).fb = s.fb := rfl
@[simp] theorem State.setSt_keys (b : Byte) : (s.setSt b).keys = s.keys := rfl
@[simp] theorem State.setSt_mem (b : Byte) : (s.setSt b).mem = s.mem := rfl
@[simp] theorem State.setSt_halt (b : Byte) : (s.setSt b).halt = s.halt := rfl
@[simp] theorem State.setSt_fkind (b : Byte) : (s.setSt b).fkind = s.fkind := rfl
@[simp] theorem State.setSt_fword (b : Byte) : (s.setSt b).fword = s.fword := rfl
@[simp] theorem State.setSt_fpc (b : Byte) : (s.setSt b).fpc = s.fpc := rfl
@[simp] theorem State.setSt_beep (b : Byte) : (s.setSt b).beep = s.beep := rfl
@[simp] theorem State.setSt_timerEn (b : Byte) : (s.setSt b).timerEn = s.timerEn := rfl
@[simp] theorem State.setSt_cycle (b : Byte) : (s.setSt b).cycle = s.cycle := rfl
@[simp] theorem State.setSt_rndIn (b : Byte) : (s.setSt b).rndIn = s.rndIn := rfl

@[simp] theorem State.setFb_v (f : FrameBuffer) : (s.setFb f).v = s.v := rfl
@[simp] theorem State.setFb_i (f : FrameBuffer) : (s.setFb f).i = s.i := rfl
@[simp] theorem State.setFb_pc (f : FrameBuffer) : (s.setFb f).pc = s.pc := rfl
@[simp] theorem State.setFb_sp (f : FrameBuffer) : (s.setFb f).sp = s.sp := rfl
@[simp] theorem State.setFb_stack (f : FrameBuffer) : (s.setFb f).stack = s.stack := rfl
@[simp] theorem State.setFb_dt (f : FrameBuffer) : (s.setFb f).dt = s.dt := rfl
@[simp] theorem State.setFb_st (f : FrameBuffer) : (s.setFb f).st = s.st := rfl
@[simp] theorem State.setFb_fb (f : FrameBuffer) : (s.setFb f).fb = f := rfl
@[simp] theorem State.setFb_keys (f : FrameBuffer) : (s.setFb f).keys = s.keys := rfl
@[simp] theorem State.setFb_mem (f : FrameBuffer) : (s.setFb f).mem = s.mem := rfl
@[simp] theorem State.setFb_halt (f : FrameBuffer) : (s.setFb f).halt = s.halt := rfl
@[simp] theorem State.setFb_fkind (f : FrameBuffer) : (s.setFb f).fkind = s.fkind := rfl
@[simp] theorem State.setFb_fword (f : FrameBuffer) : (s.setFb f).fword = s.fword := rfl
@[simp] theorem State.setFb_fpc (f : FrameBuffer) : (s.setFb f).fpc = s.fpc := rfl
@[simp] theorem State.setFb_beep (f : FrameBuffer) : (s.setFb f).beep = s.beep := rfl
@[simp] theorem State.setFb_timerEn (f : FrameBuffer) : (s.setFb f).timerEn = s.timerEn := rfl
@[simp] theorem State.setFb_cycle (f : FrameBuffer) : (s.setFb f).cycle = s.cycle := rfl
@[simp] theorem State.setFb_rndIn (f : FrameBuffer) : (s.setFb f).rndIn = s.rndIn := rfl

@[simp] theorem State.setMem_v (m : Memory) : (s.setMem m).v = s.v := rfl
@[simp] theorem State.setMem_i (m : Memory) : (s.setMem m).i = s.i := rfl
@[simp] theorem State.setMem_pc (m : Memory) : (s.setMem m).pc = s.pc := rfl
@[simp] theorem State.setMem_sp (m : Memory) : (s.setMem m).sp = s.sp := rfl
@[simp] theorem State.setMem_stack (m : Memory) : (s.setMem m).stack = s.stack := rfl
@[simp] theorem State.setMem_dt (m : Memory) : (s.setMem m).dt = s.dt := rfl
@[simp] theorem State.setMem_st (m : Memory) : (s.setMem m).st = s.st := rfl
@[simp] theorem State.setMem_fb (m : Memory) : (s.setMem m).fb = s.fb := rfl
@[simp] theorem State.setMem_keys (m : Memory) : (s.setMem m).keys = s.keys := rfl
@[simp] theorem State.setMem_mem (m : Memory) : (s.setMem m).mem = m := rfl
@[simp] theorem State.setMem_halt (m : Memory) : (s.setMem m).halt = s.halt := rfl
@[simp] theorem State.setMem_fkind (m : Memory) : (s.setMem m).fkind = s.fkind := rfl
@[simp] theorem State.setMem_fword (m : Memory) : (s.setMem m).fword = s.fword := rfl
@[simp] theorem State.setMem_fpc (m : Memory) : (s.setMem m).fpc = s.fpc := rfl
@[simp] theorem State.setMem_beep (m : Memory) : (s.setMem m).beep = s.beep := rfl
@[simp] theorem State.setMem_timerEn (m : Memory) : (s.setMem m).timerEn = s.timerEn := rfl
@[simp] theorem State.setMem_cycle (m : Memory) : (s.setMem m).cycle = s.cycle := rfl
@[simp] theorem State.setMem_rndIn (m : Memory) : (s.setMem m).rndIn = s.rndIn := rfl

@[simp] theorem State.advance_v : s.advance.v = s.v := rfl
@[simp] theorem State.advance_i : s.advance.i = s.i := rfl
@[simp] theorem State.advance_pc : s.advance.pc = s.pc + 2#16 := rfl
@[simp] theorem State.advance_sp : s.advance.sp = s.sp := rfl
@[simp] theorem State.advance_stack : s.advance.stack = s.stack := rfl
@[simp] theorem State.advance_dt : s.advance.dt = s.dt := rfl
@[simp] theorem State.advance_st : s.advance.st = s.st := rfl
@[simp] theorem State.advance_fb : s.advance.fb = s.fb := rfl
@[simp] theorem State.advance_keys : s.advance.keys = s.keys := rfl
@[simp] theorem State.advance_mem : s.advance.mem = s.mem := rfl
@[simp] theorem State.advance_halt : s.advance.halt = s.halt := rfl
@[simp] theorem State.advance_fkind : s.advance.fkind = s.fkind := rfl
@[simp] theorem State.advance_fword : s.advance.fword = s.fword := rfl
@[simp] theorem State.advance_fpc : s.advance.fpc = s.fpc := rfl
@[simp] theorem State.advance_beep : s.advance.beep = s.beep := rfl
@[simp] theorem State.advance_timerEn : s.advance.timerEn = s.timerEn := rfl
@[simp] theorem State.advance_cycle : s.advance.cycle = s.cycle := rfl
@[simp] theorem State.advance_rndIn : s.advance.rndIn = s.rndIn := rfl

@[simp] theorem State.skip_v : s.skip.v = s.v := rfl
@[simp] theorem State.skip_i : s.skip.i = s.i := rfl
@[simp] theorem State.skip_pc : s.skip.pc = s.pc + 4#16 := rfl
@[simp] theorem State.skip_sp : s.skip.sp = s.sp := rfl
@[simp] theorem State.skip_stack : s.skip.stack = s.stack := rfl
@[simp] theorem State.skip_dt : s.skip.dt = s.dt := rfl
@[simp] theorem State.skip_st : s.skip.st = s.st := rfl
@[simp] theorem State.skip_fb : s.skip.fb = s.fb := rfl
@[simp] theorem State.skip_keys : s.skip.keys = s.keys := rfl
@[simp] theorem State.skip_mem : s.skip.mem = s.mem := rfl
@[simp] theorem State.skip_halt : s.skip.halt = s.halt := rfl
@[simp] theorem State.skip_fkind : s.skip.fkind = s.fkind := rfl
@[simp] theorem State.skip_fword : s.skip.fword = s.fword := rfl
@[simp] theorem State.skip_fpc : s.skip.fpc = s.fpc := rfl
@[simp] theorem State.skip_beep : s.skip.beep = s.beep := rfl
@[simp] theorem State.skip_timerEn : s.skip.timerEn = s.timerEn := rfl
@[simp] theorem State.skip_cycle : s.skip.cycle = s.cycle := rfl
@[simp] theorem State.skip_rndIn : s.skip.rndIn = s.rndIn := rfl

@[simp] theorem State.jump_v (a : Word) : (s.jump a).v = s.v := rfl
@[simp] theorem State.jump_i (a : Word) : (s.jump a).i = s.i := rfl
@[simp] theorem State.jump_pc (a : Word) : (s.jump a).pc = a := rfl
@[simp] theorem State.jump_sp (a : Word) : (s.jump a).sp = s.sp := rfl
@[simp] theorem State.jump_stack (a : Word) : (s.jump a).stack = s.stack := rfl
@[simp] theorem State.jump_dt (a : Word) : (s.jump a).dt = s.dt := rfl
@[simp] theorem State.jump_st (a : Word) : (s.jump a).st = s.st := rfl
@[simp] theorem State.jump_fb (a : Word) : (s.jump a).fb = s.fb := rfl
@[simp] theorem State.jump_keys (a : Word) : (s.jump a).keys = s.keys := rfl
@[simp] theorem State.jump_mem (a : Word) : (s.jump a).mem = s.mem := rfl
@[simp] theorem State.jump_halt (a : Word) : (s.jump a).halt = s.halt := rfl
@[simp] theorem State.jump_fkind (a : Word) : (s.jump a).fkind = s.fkind := rfl
@[simp] theorem State.jump_fword (a : Word) : (s.jump a).fword = s.fword := rfl
@[simp] theorem State.jump_fpc (a : Word) : (s.jump a).fpc = s.fpc := rfl
@[simp] theorem State.jump_beep (a : Word) : (s.jump a).beep = s.beep := rfl
@[simp] theorem State.jump_timerEn (a : Word) : (s.jump a).timerEn = s.timerEn := rfl
@[simp] theorem State.jump_cycle (a : Word) : (s.jump a).cycle = s.cycle := rfl
@[simp] theorem State.jump_rndIn (a : Word) : (s.jump a).rndIn = s.rndIn := rfl

@[simp] theorem State.enterFault_v (k : FaultKind) (w p : Word) : (s.enterFault k w p).v = s.v := rfl
@[simp] theorem State.enterFault_i (k : FaultKind) (w p : Word) : (s.enterFault k w p).i = s.i := rfl
@[simp] theorem State.enterFault_pc (k : FaultKind) (w p : Word) : (s.enterFault k w p).pc = s.pc := rfl
@[simp] theorem State.enterFault_sp (k : FaultKind) (w p : Word) : (s.enterFault k w p).sp = s.sp := rfl
@[simp] theorem State.enterFault_stack (k : FaultKind) (w p : Word) : (s.enterFault k w p).stack = s.stack := rfl
@[simp] theorem State.enterFault_dt (k : FaultKind) (w p : Word) : (s.enterFault k w p).dt = s.dt := rfl
@[simp] theorem State.enterFault_st (k : FaultKind) (w p : Word) : (s.enterFault k w p).st = s.st := rfl
@[simp] theorem State.enterFault_fb (k : FaultKind) (w p : Word) : (s.enterFault k w p).fb = s.fb := rfl
@[simp] theorem State.enterFault_keys (k : FaultKind) (w p : Word) : (s.enterFault k w p).keys = s.keys := rfl
@[simp] theorem State.enterFault_mem (k : FaultKind) (w p : Word) : (s.enterFault k w p).mem = s.mem := rfl
@[simp] theorem State.enterFault_halt (k : FaultKind) (w p : Word) : (s.enterFault k w p).halt = true := rfl
@[simp] theorem State.enterFault_fkind (k : FaultKind) (w p : Word) : (s.enterFault k w p).fkind = k.code := rfl
@[simp] theorem State.enterFault_fword (k : FaultKind) (w p : Word) : (s.enterFault k w p).fword = w := rfl
@[simp] theorem State.enterFault_fpc (k : FaultKind) (w p : Word) : (s.enterFault k w p).fpc = p := rfl
@[simp] theorem State.enterFault_beep (k : FaultKind) (w p : Word) : (s.enterFault k w p).beep = false := rfl
@[simp] theorem State.enterFault_timerEn (k : FaultKind) (w p : Word) : (s.enterFault k w p).timerEn = s.timerEn := rfl
@[simp] theorem State.enterFault_cycle (k : FaultKind) (w p : Word) : (s.enterFault k w p).cycle = s.cycle := rfl
@[simp] theorem State.enterFault_rndIn (k : FaultKind) (w p : Word) : (s.enterFault k w p).rndIn = s.rndIn := rfl

@[simp] theorem State.timerPhase_v : s.timerPhase.v = s.v := rfl
@[simp] theorem State.timerPhase_i : s.timerPhase.i = s.i := rfl
@[simp] theorem State.timerPhase_pc : s.timerPhase.pc = s.pc := rfl
@[simp] theorem State.timerPhase_sp : s.timerPhase.sp = s.sp := rfl
@[simp] theorem State.timerPhase_stack : s.timerPhase.stack = s.stack := rfl
@[simp] theorem State.timerPhase_dt : s.timerPhase.dt = countDown s.dt := rfl
@[simp] theorem State.timerPhase_st : s.timerPhase.st = countDown s.st := rfl
@[simp] theorem State.timerPhase_fb : s.timerPhase.fb = s.fb := rfl
@[simp] theorem State.timerPhase_keys : s.timerPhase.keys = s.keys := rfl
@[simp] theorem State.timerPhase_mem : s.timerPhase.mem = s.mem := rfl
@[simp] theorem State.timerPhase_halt : s.timerPhase.halt = s.halt := rfl
@[simp] theorem State.timerPhase_fkind : s.timerPhase.fkind = s.fkind := rfl
@[simp] theorem State.timerPhase_fword : s.timerPhase.fword = s.fword := rfl
@[simp] theorem State.timerPhase_fpc : s.timerPhase.fpc = s.fpc := rfl
@[simp] theorem State.timerPhase_beep : s.timerPhase.beep = (s.st != 0#8) := rfl
@[simp] theorem State.timerPhase_timerEn : s.timerPhase.timerEn = s.timerEn := rfl
@[simp] theorem State.timerPhase_cycle : s.timerPhase.cycle = s.cycle := rfl
@[simp] theorem State.timerPhase_rndIn : s.timerPhase.rndIn = s.rndIn := rfl

@[simp] theorem State.nextInputs_v : s.nextInputs.v = s.v := rfl
@[simp] theorem State.nextInputs_i : s.nextInputs.i = s.i := rfl
@[simp] theorem State.nextInputs_pc : s.nextInputs.pc = s.pc := rfl
@[simp] theorem State.nextInputs_sp : s.nextInputs.sp = s.sp := rfl
@[simp] theorem State.nextInputs_stack : s.nextInputs.stack = s.stack := rfl
@[simp] theorem State.nextInputs_dt : s.nextInputs.dt = s.dt := rfl
@[simp] theorem State.nextInputs_st : s.nextInputs.st = s.st := rfl
@[simp] theorem State.nextInputs_fb : s.nextInputs.fb = s.fb := rfl
@[simp] theorem State.nextInputs_keys : s.nextInputs.keys = s.keys := rfl
@[simp] theorem State.nextInputs_mem : s.nextInputs.mem = s.mem := rfl
@[simp] theorem State.nextInputs_halt : s.nextInputs.halt = s.halt := rfl
@[simp] theorem State.nextInputs_fkind : s.nextInputs.fkind = s.fkind := rfl
@[simp] theorem State.nextInputs_fword : s.nextInputs.fword = s.fword := rfl
@[simp] theorem State.nextInputs_fpc : s.nextInputs.fpc = s.fpc := rfl
@[simp] theorem State.nextInputs_beep : s.nextInputs.beep = s.beep := rfl
@[simp] theorem State.nextInputs_timerEn : s.nextInputs.timerEn = s.timerEn := rfl
@[simp] theorem State.nextInputs_cycle : s.nextInputs.cycle = s.cycle + 1 := rfl
@[simp] theorem State.nextInputs_rndIn : s.nextInputs.rndIn = none := rfl

@[simp] theorem State.setKey_v (k : Nibble) (b : Bool) : (s.setKey k b).v = s.v := rfl
@[simp] theorem State.setKey_i (k : Nibble) (b : Bool) : (s.setKey k b).i = s.i := rfl
@[simp] theorem State.setKey_pc (k : Nibble) (b : Bool) : (s.setKey k b).pc = s.pc := rfl
@[simp] theorem State.setKey_sp (k : Nibble) (b : Bool) : (s.setKey k b).sp = s.sp := rfl
@[simp] theorem State.setKey_stack (k : Nibble) (b : Bool) : (s.setKey k b).stack = s.stack := rfl
@[simp] theorem State.setKey_dt (k : Nibble) (b : Bool) : (s.setKey k b).dt = s.dt := rfl
@[simp] theorem State.setKey_st (k : Nibble) (b : Bool) : (s.setKey k b).st = s.st := rfl
@[simp] theorem State.setKey_fb (k : Nibble) (b : Bool) : (s.setKey k b).fb = s.fb := rfl
@[simp] theorem State.setKey_keys (k : Nibble) (b : Bool) : (s.setKey k b).keys = s.keys.set k.toNat b k.isLt := rfl
@[simp] theorem State.setKey_mem (k : Nibble) (b : Bool) : (s.setKey k b).mem = s.mem := rfl
@[simp] theorem State.setKey_halt (k : Nibble) (b : Bool) : (s.setKey k b).halt = s.halt := rfl
@[simp] theorem State.setKey_fkind (k : Nibble) (b : Bool) : (s.setKey k b).fkind = s.fkind := rfl
@[simp] theorem State.setKey_fword (k : Nibble) (b : Bool) : (s.setKey k b).fword = s.fword := rfl
@[simp] theorem State.setKey_fpc (k : Nibble) (b : Bool) : (s.setKey k b).fpc = s.fpc := rfl
@[simp] theorem State.setKey_beep (k : Nibble) (b : Bool) : (s.setKey k b).beep = s.beep := rfl
@[simp] theorem State.setKey_timerEn (k : Nibble) (b : Bool) : (s.setKey k b).timerEn = s.timerEn := rfl
@[simp] theorem State.setKey_cycle (k : Nibble) (b : Bool) : (s.setKey k b).cycle = s.cycle := rfl
@[simp] theorem State.setKey_rndIn (k : Nibble) (b : Bool) : (s.setKey k b).rndIn = s.rndIn := rfl

@[simp] theorem State.withInputs_v (r : Byte) (e : Bool) : (s.withInputs r e).v = s.v := rfl
@[simp] theorem State.withInputs_i (r : Byte) (e : Bool) : (s.withInputs r e).i = s.i := rfl
@[simp] theorem State.withInputs_pc (r : Byte) (e : Bool) : (s.withInputs r e).pc = s.pc := rfl
@[simp] theorem State.withInputs_sp (r : Byte) (e : Bool) : (s.withInputs r e).sp = s.sp := rfl
@[simp] theorem State.withInputs_stack (r : Byte) (e : Bool) : (s.withInputs r e).stack = s.stack := rfl
@[simp] theorem State.withInputs_dt (r : Byte) (e : Bool) : (s.withInputs r e).dt = s.dt := rfl
@[simp] theorem State.withInputs_st (r : Byte) (e : Bool) : (s.withInputs r e).st = s.st := rfl
@[simp] theorem State.withInputs_fb (r : Byte) (e : Bool) : (s.withInputs r e).fb = s.fb := rfl
@[simp] theorem State.withInputs_keys (r : Byte) (e : Bool) : (s.withInputs r e).keys = s.keys := rfl
@[simp] theorem State.withInputs_mem (r : Byte) (e : Bool) : (s.withInputs r e).mem = s.mem := rfl
@[simp] theorem State.withInputs_halt (r : Byte) (e : Bool) : (s.withInputs r e).halt = s.halt := rfl
@[simp] theorem State.withInputs_fkind (r : Byte) (e : Bool) : (s.withInputs r e).fkind = s.fkind := rfl
@[simp] theorem State.withInputs_fword (r : Byte) (e : Bool) : (s.withInputs r e).fword = s.fword := rfl
@[simp] theorem State.withInputs_fpc (r : Byte) (e : Bool) : (s.withInputs r e).fpc = s.fpc := rfl
@[simp] theorem State.withInputs_beep (r : Byte) (e : Bool) : (s.withInputs r e).beep = s.beep := rfl
@[simp] theorem State.withInputs_timerEn (r : Byte) (e : Bool) : (s.withInputs r e).timerEn = e := rfl
@[simp] theorem State.withInputs_cycle (r : Byte) (e : Bool) : (s.withInputs r e).cycle = s.cycle := rfl
@[simp] theorem State.withInputs_rndIn (r : Byte) (e : Bool) : (s.withInputs r e).rndIn = some r := rfl

end Sys2Proof.Machine
end

