-- ==== Sys2Proof/Laws/Ops.lean ====
section
/-! SUPPORT. What each shared operation does, once: registers, stack, memory accesses with their bounds
check, blocks of registers, keys. Later proofs cite these and unfold no operation. -/

namespace Sys2Proof.Machine

theorem Nibble.toNat_inj {x y : Nibble} : x.toNat = y.toNat ↔ x = y := BitVec.toNat_inj

/-- A register read after a register write (R20). -/
@[simp] theorem State.reg_setReg (s : State) (x y : Nibble) (b : Byte) :
    (s.setReg x b).reg y = if y = x then b else s.reg y := by
  simp only [State.reg, State.setReg_v, Vector.getElem_set, Nibble.toNat_inj, eq_comm]

/-- Registers are read from `V` alone. -/
theorem State.reg_congr {s t : State} (h : t.v = s.v) (y : Nibble) : t.reg y = s.reg y := by
  simp [State.reg, h]

@[simp] theorem State.reg_setI (s : State) (w : Word) (y : Nibble) : (s.setI w).reg y = s.reg y := rfl
@[simp] theorem State.reg_setDt (s : State) (b : Byte) (y : Nibble) : (s.setDt b).reg y = s.reg y := rfl
@[simp] theorem State.reg_setSt (s : State) (b : Byte) (y : Nibble) : (s.setSt b).reg y = s.reg y := rfl
@[simp] theorem State.reg_setFb (s : State) (f : FrameBuffer) (y : Nibble) : (s.setFb f).reg y = s.reg y := rfl
@[simp] theorem State.reg_setMem (s : State) (m : Memory) (y : Nibble) : (s.setMem m).reg y = s.reg y := rfl
@[simp] theorem State.reg_advance (s : State) (y : Nibble) : s.advance.reg y = s.reg y := rfl
@[simp] theorem State.reg_skip (s : State) (y : Nibble) : s.skip.reg y = s.reg y := rfl
@[simp] theorem State.reg_jump (s : State) (a : Word) (y : Nibble) : (s.jump a).reg y = s.reg y := rfl
@[simp] theorem State.reg_enterFault (s : State) (k : FaultKind) (w p : Word) (y : Nibble) :
    (s.enterFault k w p).reg y = s.reg y := rfl
@[simp] theorem State.reg_timerPhase (s : State) (y : Nibble) : s.timerPhase.reg y = s.reg y := rfl
@[simp] theorem State.reg_nextInputs (s : State) (y : Nibble) : s.nextInputs.reg y = s.reg y := rfl

/-- Bytes are read from `MEM` alone. -/
theorem State.byteAt_congr {s t : State} (h : t.mem = s.mem) (a : Nat) : t.byteAt a = s.byteAt a := by
  simp [State.byteAt, h]

@[simp] theorem State.byteAt_setReg (s : State) (x : Nibble) (b : Byte) (a : Nat) :
    (s.setReg x b).byteAt a = s.byteAt a := rfl
@[simp] theorem State.byteAt_setI (s : State) (w : Word) (a : Nat) : (s.setI w).byteAt a = s.byteAt a := rfl
@[simp] theorem State.byteAt_setDt (s : State) (b : Byte) (a : Nat) : (s.setDt b).byteAt a = s.byteAt a := rfl
@[simp] theorem State.byteAt_setSt (s : State) (b : Byte) (a : Nat) : (s.setSt b).byteAt a = s.byteAt a := rfl
@[simp] theorem State.byteAt_setFb (s : State) (f : FrameBuffer) (a : Nat) :
    (s.setFb f).byteAt a = s.byteAt a := rfl
@[simp] theorem State.byteAt_setMem (s : State) (m : Memory) (a : Nat) :
    (s.setMem m).byteAt a = Memory.read m a := rfl
@[simp] theorem State.byteAt_advance (s : State) (a : Nat) : s.advance.byteAt a = s.byteAt a := rfl
@[simp] theorem State.byteAt_skip (s : State) (a : Nat) : s.skip.byteAt a = s.byteAt a := rfl
@[simp] theorem State.byteAt_jump (s : State) (w : Word) (a : Nat) : (s.jump w).byteAt a = s.byteAt a := rfl
@[simp] theorem State.byteAt_enterFault (s : State) (k : FaultKind) (w p : Word) (a : Nat) :
    (s.enterFault k w p).byteAt a = s.byteAt a := rfl
@[simp] theorem State.byteAt_timerPhase (s : State) (a : Nat) : s.timerPhase.byteAt a = s.byteAt a := rfl
@[simp] theorem State.byteAt_nextInputs (s : State) (a : Nat) : s.nextInputs.byteAt a = s.byteAt a := rfl

/-- `CheckRange` as R55 words it. -/
theorem checkRange_iff (a n : Nat) : checkRange a n = true ↔ n = 0 ∨ a + n - 1 ≤ 0xFFF := by
  simp [checkRange]

/-- What `MemRead` answers (R55). -/
theorem State.memRead_eq (s : State) (a n : Nat) :
    s.memRead a n = if n = 0 ∨ a + n - 1 ≤ 0xFFF then some (Memory.readRange s.mem a n) else none := by
  simp [State.memRead, checkRange]

/-- What `MemWrite` answers (R55). -/
theorem State.memWrite_eq (s : State) (a : Nat) (bs : List Byte) :
    s.memWrite a bs =
      if bs.length = 0 ∨ a + bs.length - 1 ≤ 0xFFF then some (s.setMem (Memory.writeRange s.mem a bs))
      else none := by
  simp [State.memWrite, checkRange]

/-- Everything a successful push does (R24). -/
theorem State.push_some {s t : State} {w : Word} (h : s.push w = some t) :
    ∃ hs : s.sp.val < 12, t = { s with stack := s.stack.set s.sp.val w hs
                                       sp := ⟨s.sp.val + 1, Nat.succ_lt_succ hs⟩ } := by
  unfold State.push at h
  split at h
  · next hs => exact ⟨hs, (Option.some.inj h).symm⟩
  · cases h

/-- A push fails exactly on a full stack (R24). -/
theorem State.push_none {s : State} {w : Word} : s.push w = none ↔ s.sp.val = 12 := by
  unfold State.push
  split
  · next hs => simp; omega
  · next hs => simp; omega

/-- Everything a successful pop does (R24). -/
theorem State.pop_some {s t : State} {a : Word} (h : s.pop = some (a, t)) :
    ∃ (_ : 0 < s.sp.val) (hb : s.sp.val - 1 < 12), a = s.slot ⟨s.sp.val - 1, hb⟩ ∧
      t = { s with sp := ⟨s.sp.val - 1, Nat.lt_succ_of_lt hb⟩ } := by
  unfold State.pop at h
  split at h
  · cases h
  · next k hk e =>
    obtain ⟨h1, h2⟩ := Prod.mk.inj (Option.some.inj h)
    subst h1; subst h2
    have hsp : s.sp.val = k + 1 := by rw [e]
    refine ⟨by omega, by omega, ?_, ?_⟩
    · simp [hsp]
    · simp [hsp]

/-- A pop fails exactly on an empty stack (R24). -/
theorem State.pop_none {s : State} : s.pop = none ↔ s.sp.val = 0 := by
  unfold State.pop
  split
  · next e => simp [e]
  · next e => simp [e]

@[simp] theorem State.regBlock_length (s : State) (x : Nibble) : (s.regBlock x).length = x.toNat + 1 := by
  have := x.isLt
  simp [State.regBlock]; omega

/-- The `k`-th byte of the block `V0..Vx` is `V[k]` (R154). -/
theorem State.regBlock_getElem (s : State) (x : Nibble) (k : Nat) (h : k < (s.regBlock x).length) :
    (s.regBlock x)[k] = s.reg (BitVec.ofNat 4 k) := by
  have hk : k < 16 := by have := x.isLt; simp at h; omega
  simp [State.regBlock, State.reg, Nat.mod_eq_of_lt hk]

/-- Loading a block of registers changes nothing but `V`. -/
theorem State.setRegsFrom_only_v (s : State) (k : Nat) (bs : List Byte) :
    ∃ v, State.setRegsFrom s k bs = { s with v := v } := by
  induction bs generalizing s k with
  | nil => exact ⟨s.v, rfl⟩
  | cons b bs ih =>
    obtain ⟨v, hv⟩ := ih (s.setReg (BitVec.ofNat 4 k) b) (k + 1)
    exact ⟨v, by rw [State.setRegsFrom, hv]; rfl⟩

/-- A register after a block is loaded from index `k` up (R155). -/
theorem State.reg_setRegsFrom (s : State) (k : Nat) (bs : List Byte) (h : k + bs.length ≤ 16) (y : Nibble) :
    (State.setRegsFrom s k bs).reg y =
      if h : k ≤ y.toNat ∧ y.toNat - k < bs.length then bs[y.toNat - k]'h.2 else s.reg y := by
  induction bs generalizing s k with
  | nil => simp [State.setRegsFrom]
  | cons b bs ih =>
    simp only [List.length_cons] at h
    rw [State.setRegsFrom, ih _ _ (by omega)]
    have hk : (BitVec.ofNat 4 k).toNat = k := by simp; omega
    by_cases e : y.toNat = k
    · have hy : y = BitVec.ofNat 4 k := by apply BitVec.eq_of_toNat_eq; omega
      have h1 : ¬(k + 1 ≤ y.toNat ∧ y.toNat - (k + 1) < bs.length) := by omega
      have h2 : k ≤ y.toNat ∧ y.toNat - k < (b :: bs).length := by simp; omega
      rw [dif_neg h1, dif_pos h2, State.reg_setReg, if_pos hy]
      simp [show y.toNat - k = 0 by omega]
    · have hy : y ≠ BitVec.ofNat 4 k := fun he => e (by rw [he, hk])
      by_cases h1 : k + 1 ≤ y.toNat ∧ y.toNat - (k + 1) < bs.length
      · have h2 : k ≤ y.toNat ∧ y.toNat - k < (b :: bs).length := by simp; omega
        rw [dif_pos h1, dif_pos h2]
        simp [show y.toNat - k = (y.toNat - (k + 1)) + 1 by omega]
      · have h2 : ¬(k ≤ y.toNat ∧ y.toNat - k < (b :: bs).length) := by simp; omega
        rw [dif_neg h1, dif_neg h2, State.reg_setReg, if_neg hy]

/-- A byte as a key index (R181). -/
theorem keyIndex_eq (a : Byte) : keyIndex a = if a.toNat ≤ 15 then some (a.setWidth 4) else none := rfl

/-- No key is found exactly when none is pressed (R177). -/
theorem State.lowestKey_none {s : State} : s.lowestKey = none ↔ ∀ k, s.key k = false := by
  simp only [State.lowestKey, Option.map_eq_none_iff, List.findIdx?_eq_none_iff, Vector.mem_toList_iff, id]
  constructor
  · intro h k
    exact h _ (Vector.getElem_mem _)
  · intro h b hb
    obtain ⟨k, hk, rfl⟩ := Vector.mem_iff_getElem.1 hb
    have := h (BitVec.ofNat 4 k)
    simpa [State.key, Nat.mod_eq_of_lt hk] using this

/-- The key that is found is pressed and no smaller one is (R177). -/
theorem State.lowestKey_some {s : State} {k : Nibble} :
    s.lowestKey = some k ↔ s.key k = true ∧ ∀ j : Nibble, j.toNat < k.toNat → s.key j = false := by
  simp only [State.lowestKey, Option.map_eq_some_iff, List.findIdx?_eq_some_iff_getElem, id]
  constructor
  · rintro ⟨n, ⟨hn, h1, h2⟩, rfl⟩
    have hn' : n < 16 := by simpa using hn
    have e : (BitVec.ofNat 4 n).toNat = n := by simp; omega
    constructor
    · simpa [State.key, Nat.mod_eq_of_lt hn'] using h1
    · intro j hj
      rw [e] at hj
      have := h2 j.toNat hj
      simpa [State.key] using this
  · rintro ⟨h1, h2⟩
    refine ⟨k.toNat, ⟨by have := k.isLt; simp; omega, by simpa [State.key] using h1, ?_⟩, by simp⟩
    intro j hj
    have hj' : j < 16 := by have := k.isLt; omega
    have := h2 (BitVec.ofNat 4 j) (by simp; omega)
    simpa [State.key, Nat.mod_eq_of_lt hj'] using this

@[simp] theorem State.skipIf_true (s : State) : s.skipIf true = s.skip := rfl
@[simp] theorem State.skipIf_false (s : State) : s.skipIf false = s.advance := rfl

/-- Everything a skip instruction does (R94). -/
theorem State.skipIf_eq (s : State) (c : Bool) :
    s.skipIf c = { s with pc := if c then s.pc + 4#16 else s.pc + 2#16 } := by
  cases c <;> rfl

/-- Taking the fault of an instruction is taking a fault (R198): the field laws of `enterFault` apply. -/
@[simp] theorem State.raise_eq (s : State) (kind : FaultKind) (i : Instr) :
    s.raise kind i = s.enterFault kind (encode i) s.pc := rfl

/-- Every register after flag and result are written, in this order (R97). -/
@[simp] theorem State.reg_flagThenResult (s : State) (flag : Bool) (x : Nibble) (b : Byte) (y : Nibble) :
    (s.flagThenResult flag x b).reg y = if y = x then b else if y = 0xF#4 then flagByte flag else s.reg y := by
  simp [State.flagThenResult]

/-- Writing flag and result changes nothing but `V`. -/
theorem State.flagThenResult_only_v (s : State) (flag : Bool) (x : Nibble) (b : Byte) :
    ∃ v, s.flagThenResult flag x b = { s with v := v } := ⟨_, rfl⟩

/-- One decrement of a timer (R206). -/
theorem countDown_toNat (b : Byte) : (countDown b).toNat = b.toNat - 1 := by
  revert b; decide

/-- The end of a cycle that faulted: the inputs are used up and nothing else. -/
theorem State.finishCycle_of_halt {s : State} (h : s.halt = true) : s.finishCycle = s.nextInputs := by
  simp [State.finishCycle, h]

/-- The end of a cycle that did not fault, with `timer_en` 1 (R98). -/
theorem State.finishCycle_of_timers {s : State} (h : s.halt = false) (e : s.timerEn = true) :
    s.finishCycle = s.timerPhase.nextInputs := by
  simp [State.finishCycle, State.timerStep, h, e]

/-- The end of a cycle that did not fault, with `timer_en` 0 (R98). -/
theorem State.finishCycle_of_no_timers {s : State} (h : s.halt = false) (e : s.timerEn = false) :
    s.finishCycle = { s with beep := false }.nextInputs := by
  simp [State.finishCycle, State.timerStep, h, e]

/-- The fetch inside memory (R92). -/
theorem State.fetchWord_eq {s : State} (h : s.pc.toNat ≤ 0xFFE) : s.fetchWord = some s.wordAtPc := by
  simp only [State.fetchWord, if_neg (Nat.not_lt.2 h)]; rfl

/-- The fetch outside memory (R92). -/
theorem State.fetchWord_none {s : State} (h : s.pc.toNat > 0xFFE) : s.fetchWord = none := by
  simp only [State.fetchWord, if_pos h]

end Sys2Proof.Machine
end

