-- ==== Sys2Proof/Laws/PerInstr.lean ====
section
/-! SUPPORT. Statements about every instruction as syntax, one lemma per constructor of Instr (the
families that LAWS.json names). -/

namespace Sys2Proof.Laws

/-- An instruction's word selects its row of R74: `word & mask == match`. -/
def TableRow.Statement (i : Instr) : Prop := encode i &&& i.tableRow.2 = i.tableRow.1

theorem TableRow.cls : TableRow.Statement (.cls) := by
  unfold TableRow.Statement; decide

theorem TableRow.ret : TableRow.Statement (.ret) := by
  unfold TableRow.Statement; decide

theorem TableRow.sys (nnn : Addr12) : TableRow.Statement (.sys nnn) := by
  simp [TableRow.Statement, encode, Instr.tableRow, and_F000]; decide

theorem TableRow.jp (nnn : Addr12) : TableRow.Statement (.jp nnn) := by
  simp [TableRow.Statement, encode, Instr.tableRow, and_F000]; decide

theorem TableRow.call (nnn : Addr12) : TableRow.Statement (.call nnn) := by
  simp [TableRow.Statement, encode, Instr.tableRow, and_F000]; decide

theorem TableRow.seImm (x : Nibble) (kk : Byte) : TableRow.Statement (.seImm x kk) := by
  simp [TableRow.Statement, encode, Instr.tableRow, and_F000]; decide

theorem TableRow.sneImm (x : Nibble) (kk : Byte) : TableRow.Statement (.sneImm x kk) := by
  simp [TableRow.Statement, encode, Instr.tableRow, and_F000]; decide

theorem TableRow.seReg (x y : Nibble) : TableRow.Statement (.seReg x y) := by
  simp [TableRow.Statement, encode, Instr.tableRow, and_F00F]; decide

theorem TableRow.ldImm (x : Nibble) (kk : Byte) : TableRow.Statement (.ldImm x kk) := by
  simp [TableRow.Statement, encode, Instr.tableRow, and_F000]; decide

theorem TableRow.addImm (x : Nibble) (kk : Byte) : TableRow.Statement (.addImm x kk) := by
  simp [TableRow.Statement, encode, Instr.tableRow, and_F000]; decide

theorem TableRow.ldReg (x y : Nibble) : TableRow.Statement (.ldReg x y) := by
  simp [TableRow.Statement, encode, Instr.tableRow, and_F00F]; decide

theorem TableRow.orReg (x y : Nibble) : TableRow.Statement (.orReg x y) := by
  simp [TableRow.Statement, encode, Instr.tableRow, and_F00F]; decide

theorem TableRow.andReg (x y : Nibble) : TableRow.Statement (.andReg x y) := by
  simp [TableRow.Statement, encode, Instr.tableRow, and_F00F]; decide

theorem TableRow.xorReg (x y : Nibble) : TableRow.Statement (.xorReg x y) := by
  simp [TableRow.Statement, encode, Instr.tableRow, and_F00F]; decide

theorem TableRow.addReg (x y : Nibble) : TableRow.Statement (.addReg x y) := by
  simp [TableRow.Statement, encode, Instr.tableRow, and_F00F]; decide

theorem TableRow.subReg (x y : Nibble) : TableRow.Statement (.subReg x y) := by
  simp [TableRow.Statement, encode, Instr.tableRow, and_F00F]; decide

theorem TableRow.shr (x y : Nibble) : TableRow.Statement (.shr x y) := by
  simp [TableRow.Statement, encode, Instr.tableRow, and_F00F]; decide

theorem TableRow.subn (x y : Nibble) : TableRow.Statement (.subn x y) := by
  simp [TableRow.Statement, encode, Instr.tableRow, and_F00F]; decide

theorem TableRow.shl (x y : Nibble) : TableRow.Statement (.shl x y) := by
  simp [TableRow.Statement, encode, Instr.tableRow, and_F00F]; decide

theorem TableRow.sneReg (x y : Nibble) : TableRow.Statement (.sneReg x y) := by
  simp [TableRow.Statement, encode, Instr.tableRow, and_F00F]; decide

theorem TableRow.ldI (nnn : Addr12) : TableRow.Statement (.ldI nnn) := by
  simp [TableRow.Statement, encode, Instr.tableRow, and_F000]; decide

theorem TableRow.jpV0 (nnn : Addr12) : TableRow.Statement (.jpV0 nnn) := by
  simp [TableRow.Statement, encode, Instr.tableRow, and_F000]; decide

theorem TableRow.rnd (x : Nibble) (kk : Byte) : TableRow.Statement (.rnd x kk) := by
  simp [TableRow.Statement, encode, Instr.tableRow, and_F000]; decide

theorem TableRow.drw (x y n : Nibble) : TableRow.Statement (.drw x y n) := by
  simp [TableRow.Statement, encode, Instr.tableRow, and_F000]; decide

theorem TableRow.skp (x : Nibble) : TableRow.Statement (.skp x) := by
  simp [TableRow.Statement, encode, Instr.tableRow, and_F0FF]; decide

theorem TableRow.sknp (x : Nibble) : TableRow.Statement (.sknp x) := by
  simp [TableRow.Statement, encode, Instr.tableRow, and_F0FF]; decide

theorem TableRow.ldVxDt (x : Nibble) : TableRow.Statement (.ldVxDt x) := by
  simp [TableRow.Statement, encode, Instr.tableRow, and_F0FF]; decide

theorem TableRow.ldVxK (x : Nibble) : TableRow.Statement (.ldVxK x) := by
  simp [TableRow.Statement, encode, Instr.tableRow, and_F0FF]; decide

theorem TableRow.ldDtVx (x : Nibble) : TableRow.Statement (.ldDtVx x) := by
  simp [TableRow.Statement, encode, Instr.tableRow, and_F0FF]; decide

theorem TableRow.ldStVx (x : Nibble) : TableRow.Statement (.ldStVx x) := by
  simp [TableRow.Statement, encode, Instr.tableRow, and_F0FF]; decide

theorem TableRow.addI (x : Nibble) : TableRow.Statement (.addI x) := by
  simp [TableRow.Statement, encode, Instr.tableRow, and_F0FF]; decide

theorem TableRow.ldF (x : Nibble) : TableRow.Statement (.ldF x) := by
  simp [TableRow.Statement, encode, Instr.tableRow, and_F0FF]; decide

theorem TableRow.ldB (x : Nibble) : TableRow.Statement (.ldB x) := by
  simp [TableRow.Statement, encode, Instr.tableRow, and_F0FF]; decide

theorem TableRow.ldMemVx (x : Nibble) : TableRow.Statement (.ldMemVx x) := by
  simp [TableRow.Statement, encode, Instr.tableRow, and_F0FF]; decide

theorem TableRow.ldVxMem (x : Nibble) : TableRow.Statement (.ldVxMem x) := by
  simp [TableRow.Statement, encode, Instr.tableRow, and_F0FF]; decide

end Sys2Proof.Laws
end

