-- ==== Sys2Proof/Tests/Slice0.lean ====
section
/-! SUPPORT. The model's own tests. Expected results are the vectors of spec/95_test_vectors.md (named in
each theorem) or words written out from R72 and R74; no result was taken from the model. Last, for every
obligation with hypotheses, states and operands that meet them. -/

namespace Sys2Proof.Tests

open Sys2Proof Sys2Proof.Machine

/-- The reset state with the word `w` stored big-endian at `PC` = 0x200. -/
def placed (w : Nat) : State := State.reset.withFetchWord 16 w

/-- Registers set one after another. -/
def withRegs (s : State) (l : List (Nibble × Byte)) : State := l.foldl (fun t p => t.setReg p.1 p.2) s

/-- Bytes stored from address `a` up. -/
def withBytes (s : State) (a : Nat) (bs : List Byte) : State := s.setMem (Memory.writeRange s.mem a bs)

/-- Cells of the frame buffer turned on. -/
def withCells (s : State) (l : List (Nat × Nat)) : State :=
  s.setFb (l.foldl (fun f p => FrameBuffer.setCell f p.1 p.2 true) s.fb)

/-- One cycle with `rnd` = 0, as the vectors have it unless they say otherwise. -/
def cyc (timerEn : Bool) (s : State) : Result := runCycle 0#8 timerEn s

/-- What is seen of the next state. -/
def seen {α : Type} (r : Result) (f : State → α) : Option α :=
  match r with
  | .next t => some (f t)
  | .fault _ => none
  | .refused _ => none

/-- The latched fault and `PC`. -/
def latch (t : State) : Bool × BitVec 3 × Word × Word × Word := (t.halt, t.fkind, t.fword, t.fpc, t.pc)

/-! WellFormed: the one check, on both sides. -/

theorem test_wellFormed_refuses_sys_0E0 : (Instr.sys 0x0E0#12).wellFormed = false := by decide
theorem test_wellFormed_refuses_sys_0EE : (Instr.sys 0x0EE#12).wellFormed = false := by decide
theorem test_wellFormed_accepts_sys_0E1 : (Instr.sys 0x0E1#12).wellFormed = true := by decide
/-- The encoder gives the ill-formed term the word of `00E0`, which does not decode to it. -/
theorem test_ill_formed_sys_is_not_decoded : decodeWord (encode (.sys 0x0E0#12)) = .ok .cls := by decide

/-! Decoding: one word for every constructor, its nibbles written from R72 and R74, every field with a
value of its own. -/

theorem test_decode_cls : decodeTableWord 16 0x00E0 = some .cls := by decide
theorem test_decode_ret : decodeTableWord 16 0x00EE = some .ret := by decide
theorem test_decode_sys : decodeTableWord 16 0x0123 = some (.sys 0x123#12) := by decide
theorem test_decode_jp : decodeTableWord 16 0x1ABC = some (.jp 0xABC#12) := by decide
theorem test_decode_call : decodeTableWord 16 0x2345 = some (.call 0x345#12) := by decide
theorem test_decode_seImm : decodeTableWord 16 0x3A2B = some (.seImm 0xA#4 0x2B#8) := by decide
theorem test_decode_sneImm : decodeTableWord 16 0x4A2B = some (.sneImm 0xA#4 0x2B#8) := by decide
theorem test_decode_seReg : decodeTableWord 16 0x5120 = some (.seReg 0x1#4 0x2#4) := by decide
theorem test_decode_ldImm : decodeTableWord 16 0x6A02 = some (.ldImm 0xA#4 0x02#8) := by decide
theorem test_decode_addImm : decodeTableWord 16 0x7A05 = some (.addImm 0xA#4 0x05#8) := by decide
theorem test_decode_ldReg : decodeTableWord 16 0x8120 = some (.ldReg 0x1#4 0x2#4) := by decide
theorem test_decode_orReg : decodeTableWord 16 0x8121 = some (.orReg 0x1#4 0x2#4) := by decide
theorem test_decode_andReg : decodeTableWord 16 0x8122 = some (.andReg 0x1#4 0x2#4) := by decide
theorem test_decode_xorReg : decodeTableWord 16 0x8123 = some (.xorReg 0x1#4 0x2#4) := by decide
theorem test_decode_addReg : decodeTableWord 16 0x8124 = some (.addReg 0x1#4 0x2#4) := by decide
theorem test_decode_subReg : decodeTableWord 16 0x8125 = some (.subReg 0x1#4 0x2#4) := by decide
theorem test_decode_shr : decodeTableWord 16 0x8126 = some (.shr 0x1#4 0x2#4) := by decide
theorem test_decode_subn : decodeTableWord 16 0x8127 = some (.subn 0x1#4 0x2#4) := by decide
theorem test_decode_shl : decodeTableWord 16 0x812E = some (.shl 0x1#4 0x2#4) := by decide
theorem test_decode_sneReg : decodeTableWord 16 0x9120 = some (.sneReg 0x1#4 0x2#4) := by decide
theorem test_decode_ldI : decodeTableWord 16 0xA123 = some (.ldI 0x123#12) := by decide
theorem test_decode_jpV0 : decodeTableWord 16 0xB2A0 = some (.jpV0 0x2A0#12) := by decide
theorem test_decode_rnd : decodeTableWord 16 0xC30F = some (.rnd 0x3#4 0x0F#8) := by decide
theorem test_decode_drw : decodeTableWord 16 0xD125 = some (.drw 0x1#4 0x2#4 0x5#4) := by decide
theorem test_decode_skp : decodeTableWord 16 0xE59E = some (.skp 0x5#4) := by decide
theorem test_decode_sknp : decodeTableWord 16 0xE5A1 = some (.sknp 0x5#4) := by decide
theorem test_decode_ldVxDt : decodeTableWord 16 0xF207 = some (.ldVxDt 0x2#4) := by decide
theorem test_decode_ldVxK : decodeTableWord 16 0xF30A = some (.ldVxK 0x3#4) := by decide
theorem test_decode_ldDtVx : decodeTableWord 16 0xF215 = some (.ldDtVx 0x2#4) := by decide
theorem test_decode_ldStVx : decodeTableWord 16 0xF218 = some (.ldStVx 0x2#4) := by decide
theorem test_decode_addI : decodeTableWord 16 0xF21E = some (.addI 0x2#4) := by decide
theorem test_decode_ldF : decodeTableWord 16 0xF429 = some (.ldF 0x4#4) := by decide
theorem test_decode_ldB : decodeTableWord 16 0xF533 = some (.ldB 0x5#4) := by decide
theorem test_decode_ldMemVx : decodeTableWord 16 0xF355 = some (.ldMemVx 0x3#4) := by decide
theorem test_decode_ldVxMem : decodeTableWord 16 0xF265 = some (.ldVxMem 0x2#4) := by decide

/-- One word of each illegal row of R75 that has no pattern (vectors T25, A39, A41, T29, K7, K28). -/
theorem test_decode_illegal :
    [0x5121, 0x8128, 0x812F, 0x9121, 0xE59F, 0xF1FF].map (decodeTableWord 16) =
      [none, none, none, none, none, none] := by decide

/-! Control flow (T series). -/

theorem test_T3_ret_pops_slot_11 :
    seen (cyc false { placed 0x00EE with sp := 12, stack := (placed 0).stack.set 11 0x0300#16 })
      (fun t => (t.pc, t.sp.val)) = some (0x0300#16, 11) := by decide
theorem test_T2_ret_empty :
    seen (cyc false (placed 0x00EE)) latch = some (true, 3#3, 0x00EE#16, 0x0200#16, 0x0200#16) := by decide
theorem test_T5_zero_word_faults :
    seen (cyc false State.reset) latch = some (true, 1#3, 0x0000#16, 0x0200#16, 0x0200#16) := by decide
theorem test_T8_jp : seen (cyc false (placed 0x1ABC)) (·.pc) = some 0x0ABC#16 := by decide
theorem test_T14_call_pushes_unmasked :
    seen (exec (.call 0xABC#12) { State.reset with pc := 0x0FFE#16, sp := 3 })
      (fun t => (t.pc, t.sp.val, t.slot 3)) = some (0x0ABC#16, 4, 0x1000#16) := by decide
theorem test_T13_call_full :
    seen (cyc false { placed 0x2300 with sp := 12 }) latch =
      some (true, 2#3, 0x2300#16, 0x0200#16, 0x0200#16) := by decide
theorem test_T15_jpV0_not_masked :
    seen (cyc false (withRegs (placed 0xBFFF) [(0x0#4, 0xFF#8)])) (·.pc) = some 0x10FE#16 := by decide
theorem test_T17_jpV0_uses_V0 :
    seen (cyc false (withRegs (placed 0xB2A0) [(0x2#4, 0xFF#8)])) (·.pc) = some 0x02A0#16 := by decide
theorem test_T18_seImm_skips :
    seen (cyc false (withRegs (placed 0x3A2A) [(0xA#4, 0x2A#8)])) (·.pc) = some 0x0204#16 := by decide
theorem test_T20_sneImm_does_not_skip :
    seen (cyc false (withRegs (placed 0x4A2A) [(0xA#4, 0x2A#8)])) (·.pc) = some 0x0202#16 := by decide
theorem test_T23_seReg_does_not_skip :
    seen (cyc false (withRegs (placed 0x5120) [(0x1#4, 7#8), (0x2#4, 8#8)])) (·.pc) =
      some 0x0202#16 := by decide
theorem test_T26_sneReg_skips :
    seen (cyc false (withRegs (placed 0x9120) [(0x1#4, 7#8), (0x2#4, 8#8)])) (·.pc) =
      some 0x0204#16 := by decide
theorem test_T32_fetch_at_0FFF :
    seen (cyc false { State.reset with pc := 0x0FFF#16 }) latch =
      some (true, 4#3, 0x0000#16, 0x0FFF#16, 0x0FFF#16) := by decide

/-! Loads, ALU and random (A series). -/

/-- `V1`, `VF` and `PC` after a word with `V1` = `a`, `V2` = `b`, `VF` = `f`. -/
def alu (w : Nat) (a b f : Byte) : Option (Byte × Byte × Word) :=
  seen (cyc false (withRegs (placed w) [(0x1#4, a), (0x2#4, b), (0xF#4, f)]))
    (fun t => (t.reg 0x1#4, t.reg 0xF#4, t.pc))

theorem test_A1_ldImm : seen (cyc false (placed 0x6A02)) (·.reg 0xA#4) = some 0x02#8 := by decide
theorem test_A4_addImm_wraps_no_flag : alu 0x7101 0xFF#8 0#8 0x55#8 = some (0#8, 0x55#8, 0x0202#16) := by decide
theorem test_A7_ldReg : alu 0x8120 0#8 0x9C#8 0x55#8 = some (0x9C#8, 0x55#8, 0x0202#16) := by decide
theorem test_A8_or : alu 0x8121 0x0C#8 0x0A#8 0x55#8 = some (0x0E#8, 0x55#8, 0x0202#16) := by decide
theorem test_A9_and : alu 0x8122 0x0C#8 0x0A#8 0x55#8 = some (0x08#8, 0x55#8, 0x0202#16) := by decide
theorem test_A10_xor : alu 0x8123 0x0C#8 0x0A#8 0x55#8 = some (0x06#8, 0x55#8, 0x0202#16) := by decide
theorem test_A12_add_no_carry : alu 0x8124 0xF0#8 0x0F#8 1#8 = some (0xFF#8, 0#8, 0x0202#16) := by decide
theorem test_A16_add_into_VF : alu 0x8F14 0x20#8 0#8 0xF0#8 = some (0x20#8, 0x10#8, 0x0202#16) := by decide
theorem test_A20_sub_borrow : alu 0x8125 0x10#8 0x20#8 1#8 = some (0xF0#8, 0#8, 0x0202#16) := by decide
theorem test_A24_sub_VF_operand : alu 0x81F5 0x05#8 0#8 0x07#8 = some (0xFE#8, 0#8, 0x0202#16) := by decide
theorem test_A29_shr_flag_from_Vx : alu 0x8126 0x02#8 0x09#8 1#8 = some (0x04#8, 0#8, 0x0202#16) := by decide
theorem test_A33_shr_value_from_VF : alu 0x81F6 0x01#8 0#8 0xFE#8 = some (0x7F#8, 1#8, 0x0202#16) := by decide
theorem test_A26_subn_borrow : alu 0x8127 0x20#8 0x10#8 1#8 = some (0xF0#8, 0#8, 0x0202#16) := by decide
theorem test_A27_subn_equal : alu 0x8127 0x33#8 0x33#8 0#8 = some (0#8, 1#8, 0x0202#16) := by decide
theorem test_A34_shl_flag_from_Vx : alu 0x812E 0x80#8 0x41#8 0#8 = some (0x82#8, 1#8, 0x0202#16) := by decide
theorem test_A37_shl_into_VF : alu 0x8F1E 0x03#8 0#8 0x80#8 = some (0x03#8, 0x06#8, 0x0202#16) := by decide
theorem test_A42_rnd : seen (runCycle 0xA7#8 false (placed 0xC30F)) (·.reg 0x3#4) = some 0x07#8 := by decide

/-! Address register and memory (M series). -/

theorem test_M2_ldI : seen (cyc false { placed 0xAFFF with i := 0x1234#16 }) (·.i) = some 0x0FFF#16 := by decide
theorem test_M5_addI_wraps :
    seen (cyc false (withRegs { placed 0xF21E with i := 0xFFFF#16 } [(0x2#4, 2#8)])) (·.i) =
      some 0x0001#16 := by decide
theorem test_M10_ldF_whole_byte :
    seen (cyc false (withRegs (placed 0xF429) [(0x4#4, 0xFF#8)])) (·.i) = some 0x04FB#16 := by decide
theorem test_M11_bcd_157 :
    seen (cyc false (withRegs { placed 0xF533 with i := 0x0300#16 } [(0x5#4, 0x9D#8)]))
      (fun t => (t.byteAt 0x300, t.byteAt 0x301, t.byteAt 0x302)) = some (1#8, 5#8, 7#8) := by decide
theorem test_M15_bcd_out_of_range :
    seen (cyc false (withRegs { placed 0xF533 with i := 0x0FFE#16 } [(0x5#4, 0x9D#8)]))
      (fun t => (latch t, t.byteAt 0xFFE)) =
      some ((true, 4#3, 0xF533#16, 0x0200#16, 0x0200#16), 0#8) := by decide
theorem test_M17_store_last_byte :
    seen (cyc false (withRegs { placed 0xF055 with i := 0x0FFF#16 } [(0x0#4, 0xAB#8)]))
      (fun t => (t.byteAt 0xFFF, t.i)) = some (0xAB#8, 0x1000#16) := by decide
theorem test_M18_store_out_of_range :
    seen (cyc false (withRegs { placed 0xF155 with i := 0x0FFF#16 } [(0x0#4, 0xAB#8), (0x1#4, 0xCD#8)]))
      (fun t => (latch t, t.byteAt 0xFFF, t.i)) =
      some ((true, 4#3, 0xF155#16, 0x0200#16, 0x0200#16), 0#8, 0x0FFF#16) := by decide
theorem test_M25_load_stops_at_x :
    seen (cyc false (withRegs (withBytes { placed 0xF265 with i := 0x0300#16 } 0x300
        [0xDE#8, 0xAD#8, 0xBE#8, 0xEF#8]) [(0x3#4, 0x77#8)]))
      (fun t => (t.reg 0x0#4, t.reg 0x2#4, t.reg 0x3#4, t.i)) =
      some (0xDE#8, 0xBE#8, 0x77#8, 0x0303#16) := by decide
theorem test_M22_load_default_font :
    seen (cyc false (placed 0xFF65)) (fun t => (t.reg 0x0#4, t.reg 0x5#4, t.reg 0xF#4, t.i)) =
      some (0xF0#8, 0x20#8, 0xF0#8, 0x0010#16) := by decide

/-! Frame buffer (G series). -/

/-- Row `row` of the frame buffer, columns `col` to `col + 7`. -/
def eight (t : State) (row col : Nat) : List Bool :=
  (List.range 8).map (fun k => FrameBuffer.cell t.fb row (col + k))

theorem test_G1_cls :
    seen (cyc false (withRegs (withCells (placed 0x00E0) [(0, 0), (5, 7), (31, 63)]) [(0xF#4, 0x55#8)]))
      (fun t => (FrameBuffer.cell t.fb 5 7, FrameBuffer.cell t.fb 31 63, t.reg 0xF#4)) =
      some (false, false, 0x55#8) := by decide
theorem test_G6_drw_bits_and_collision :
    seen (cyc false (withCells (withBytes { placed 0xD011 with i := 0x0300#16 } 0x300 [0xA5#8])
        [(0, 0), (0, 1)])) (fun t => (eight t 0 0, t.reg 0xF#4)) =
      some ([false, true, true, false, false, true, false, true], 1#8) := by decide
theorem test_G9_drw_clips_at_column_60 :
    seen (cyc false (withRegs (withBytes { placed 0xD121 with i := 0x0300#16 } 0x300 [0xFF#8])
        [(0x1#4, 0x3C#8)])) (fun t => (eight t 0 56, FrameBuffer.cell t.fb 0 0, FrameBuffer.cell t.fb 1 0)) =
      some ([false, false, false, false, true, true, true, true], false, false) := by decide

/-! Keypad and timers (K series). -/

theorem test_K1_skp_pressed :
    seen (cyc false ((withRegs (placed 0xE59E) [(0x5#4, 0x0A#8)]).setKey 0xA#4 true)) (·.pc) =
      some 0x0204#16 := by decide
theorem test_K3_skp_index_16 :
    seen (cyc false ((withRegs (placed 0xE59E) [(0x5#4, 0x10#8)]).setKey 0x0#4 true)) latch =
      some (true, 1#3, 0xE59E#16, 0x0200#16, 0x0200#16) := by decide
theorem test_K5_sknp_pressed :
    seen (cyc false ((withRegs (placed 0xE5A1) [(0x5#4, 0x0A#8)]).setKey 0xA#4 true)) (·.pc) =
      some 0x0202#16 := by decide
theorem test_K6_sknp_index_255 :
    seen (cyc false (withRegs (placed 0xE5A1) [(0x5#4, 0xFF#8)])) latch =
      some (true, 1#3, 0xE5A1#16, 0x0200#16, 0x0200#16) := by decide
theorem test_K9_key_wait_suspends :
    seen (cyc true (withRegs { placed 0xF30A with dt := 5#8 } [(0x3#4, 0xAA#8)]))
      (fun t => (t.pc, t.reg 0x3#4, t.dt, t.beep)) = some (0x0200#16, 0xAA#8, 4#8, false) := by decide
theorem test_K11_key_wait_lowest :
    seen (cyc false (((placed 0xF30A).setKey 0x9#4 true).setKey 0x4#4 true))
      (fun t => (t.pc, t.reg 0x3#4)) = some (0x0202#16, 0x04#8) := by decide
theorem test_K13_read_dt :
    seen (cyc true { placed 0xF207 with dt := 0x14#8 }) (fun t => (t.reg 0x2#4, t.dt, t.beep)) =
      some (0x14#8, 0x13#8, false) := by decide
theorem test_K15_set_dt :
    seen (cyc true (withRegs (placed 0xF215) [(0x2#4, 0x3C#8)])) (fun t => (t.dt, t.beep)) =
      some (0x3B#8, false) := by decide
theorem test_K18_set_st :
    seen (cyc true (withRegs (placed 0xF218) [(0x2#4, 2#8)])) (fun t => (t.st, t.beep)) =
      some (1#8, true) := by decide
theorem test_K22_last_beep :
    seen (cyc true { placed 0x6000 with dt := 1#8, st := 1#8 }) (fun t => (t.dt, t.st, t.beep)) =
      some (0#8, 0#8, true) := by decide
theorem test_K25_fault_stops_timers :
    seen (cyc true { State.reset with dt := 5#8, st := 5#8 }) (fun t => (latch t, t.dt, t.st, t.beep)) =
      some ((true, 1#3, 0x0000#16, 0x0200#16, 0x0200#16), 5#8, 5#8, false) := by decide

/-! Load and reset (H series). -/

theorem test_H3_load_too_large :
    State.reset.load (List.replicate 3585 0xFF#8) = .error .programTooLarge :=
  if_pos (by rw [List.length_replicate]; decide)
theorem test_H7_reset_clears :
    latch (({ State.reset with halt := true, fkind := 1#3, fpc := 0x0300#16, pc := 0x0300#16 }).resetPort
      (Vector.replicate 80 0#8)) = (false, 0#3, 0#16, 0#16, 0x0200#16) := by decide

/-! For every obligation with hypotheses, states and operands that meet them, at the boundaries of the
clauses. -/

/-- `I` at the address `a`, after reset. -/
def atI (a : Nat) : State := { State.reset with i := BitVec.ofNat 16 a }

/-- `SP` = `n`, after reset. -/
def atSp (n : Fin 13) : State := { State.reset with sp := n }

/-- A state left by a fault: reset memory decodes to the `0nnn` word 0x0000. -/
def faulted : State := { State.reset with halt := true, fkind := 1#3, fpc := 0x0200#16 }

theorem witness_DecodeOfEncode :
    (Instr.sys 0x0E1#12).wellFormed = true ∧ (Instr.drw 0xF#4 0xF#4 0xF#4).wellFormed = true := by decide

theorem witness_EncodeOfDecode :
    decodeWord 0xFF65#16 = .ok (.ldVxMem 0xF#4) ∧ decodeWord 0x0000#16 = .ok (.sys 0#12) := by decide

theorem witness_IllegalWordsFault :
    illegalWord 0x00E0#16 = false ∧ illegalWord 0x00E1#16 = true ∧ State.reset.halt = false ∧
      State.reset.pc.toNat ≤ 0xFFE ∧ illegalWord State.reset.wordAtPc = true := by decide

/-- At the last address a word can be fetched from (vector T33). -/
theorem witness_StepRunsTheDecodedInstruction :
    let s := State.withFetchWord { State.reset with pc := 0x0FFE#16 } 16 0x1200
    s.halt = false ∧ s.pc.toNat ≤ 0xFFE ∧ decodeWord s.wordAtPc = .ok (.jp 0x200#12) ∧
      ∃ t, exec (.jp 0x200#12) s = .next t :=
  ⟨rfl, by decide, by decide, _, rfl⟩

theorem witness_HaltedCycleChangesNothing : faulted.halt = true := rfl

theorem witness_FetchOutOfRangeFaults :
    let s := { State.reset with pc := 0x0FFF#16 }
    s.halt = false ∧ s.pc.toNat > 0xFFE := by decide

/-- A cycle that does not fault, with `timer_en` 1 and with `timer_en` 0. -/
theorem witness_TimerPhaseAfterTheInstruction (en : Bool) :
    let s := { placed 0x6000 with dt := 0#8, st := 1#8, timerEn := en }
    s.halt = false ∧ s.pc.toNat ≤ 0xFFE ∧ decodeWord s.wordAtPc = .ok (.ldImm 0x0#4 0x00#8) ∧
      ∃ u, exec (.ldImm 0x0#4 0x00#8) s = .next u ∧ u.halt = false :=
  ⟨rfl, by show State.reset.pc.toNat ≤ 0xFFE; decide,
    by show decodeWord (placed 0x6000).wordAtPc = _; decide, _, rfl, rfl⟩

theorem witness_CycleFaultsExactlyWhenDue :
    State.reset.halt = false ∧ State.reset.faultDue = some (.unsupportedInstruction, 0x0000#16) ∧
      (placed 0x1ABC).faultDue = none ∧
      State.faultDue { State.reset with pc := 0x0FFF#16 } = some (.memoryOutOfRange, 0x0000#16) := by decide

/-- Each operand condition on both sides of its boundary. -/
theorem witness_InstructionFaultsExactlyWhenItsWordDoes :
    faultOfWord (atI 0xFFD) (encode (.ldB 0x0#4)) = none ∧
    faultOfWord (atI 0xFFE) (encode (.ldB 0x0#4)) = some .memoryOutOfRange ∧
    faultOfWord (atI 0xFFF) (encode (.ldMemVx 0x0#4)) = none ∧
    faultOfWord (atI 0xFFF) (encode (.ldMemVx 0x1#4)) = some .memoryOutOfRange ∧
    faultOfWord (atI 0xFFF) (encode (.drw 0x0#4 0x0#4 0x1#4)) = none ∧
    faultOfWord (atI 0xFFF) (encode (.drw 0x0#4 0x0#4 0x2#4)) = some .memoryOutOfRange ∧
    faultOfWord (atSp 11) (encode (.call 0#12)) = none ∧
    faultOfWord (atSp 12) (encode (.call 0#12)) = some .stackOverflow ∧
    faultOfWord (atSp 1) (encode .ret) = none ∧ faultOfWord (atSp 0) (encode .ret) = some .stackUnderflow ∧
    faultOfWord (withRegs State.reset [(0x0#4, 15#8)]) (encode (.skp 0x0#4)) = none ∧
    faultOfWord (withRegs State.reset [(0x0#4, 16#8)]) (encode (.skp 0x0#4)) =
      some .unsupportedInstruction := by decide

theorem witness_OutcomeDecidesPc :
    (Instr.ret).wellFormed = true ∧ (∃ t, exec .ret (atSp 1) = .next t) ∧ ∃ t, exec .ret (atSp 0) = .next t :=
  ⟨rfl, ⟨_, rfl⟩, ⟨_, rfl⟩⟩

/-- The invariant holds of a running state and of a halted one, and both step. -/
theorem witness_StepKeepsInvariant :
    (atI 5).Inv ∧ faulted.Inv ∧ (∃ t, step (atI 5) = .next t) ∧ ∃ t, step faulted = .next t := by
  refine ⟨⟨⟨List.Pairwise.nil, fun _ h => (nomatch h)⟩, fun _ => ⟨rfl, rfl, rfl⟩, fun h => (nomatch h)⟩,
    ⟨⟨List.Pairwise.nil, fun _ h => (nomatch h)⟩, fun h => (nomatch h), fun _ =>
      ⟨rfl, rfl, (.unsupportedInstruction, 0x0000#16), by decide, rfl, rfl⟩⟩, ⟨_, rfl⟩, ⟨_, rfl⟩⟩

theorem witness_PortsKeepInvariant :
    (atI 5).Inv ∧ (atI 5).halt = false ∧ ∃ t, (atI 5).load [0x12#8, 0x00#8] = .ok t :=
  ⟨witness_StepKeepsInvariant.1, rfl, _, rfl⟩

theorem witness_ReachableStatesMeetInvariant : ∃ s, Reachable s :=
  ⟨_, .boot State.reset _ (Vector.replicate 80 0#8) [0x12#8, 0x00#8] rfl⟩

theorem witness_ResetLatchKeysAndMemory : 79 < fontRom.length := by decide

theorem witness_LoadCopiesTheImage :
    (List.replicate 3584 0xFF#8).length ≤ 3584 ∧ (List.replicate 3585 0xFF#8).length > 3584 :=
  ⟨by rw [List.length_replicate], by rw [List.length_replicate]; decide⟩

theorem witness_ReturnPopsIntoPc :
    (atSp 1).sp.val = (0 : Fin 12).val + 1 ∧ (atSp 12).sp.val = (11 : Fin 12).val + 1 ∧
      (atSp 0).sp.val = 0 := by decide

/-- A `0nnn` word beside the two `FIXED` words, and the ill-formed term of each of these (log entry 13). -/
theorem witness_SysAlwaysFaults :
    (0x0#4 ++ 0x0E1#12 ≠ 0x00E0#16 ∧ 0x0#4 ++ 0x0E1#12 ≠ 0x00EE#16) ∧
      seen (exec (.sys 0x0E0#12) State.reset) latch = some (true, 1#3, 0x00E0#16, 0x0200#16, 0x0200#16) ∧
      seen (exec (.sys 0x0EE#12) State.reset) latch = some (true, 1#3, 0x00EE#16, 0x0200#16, 0x0200#16) := by
  decide

theorem witness_CallPushesAndJumps :
    (atSp 0).sp.val < 12 ∧ (atSp 11).sp.val < 12 ∧ (atSp 12).sp.val = 12 := by decide

theorem witness_ReturnAfterCallResumes :
    (atSp 11).sp.val < 12 ∧ ∃ t, exec (.call 0x300#12) (atSp 11) = .next t ∧ t.sp.val = 12 :=
  ⟨by decide, _, rfl, rfl⟩

/-- Of `AddSetsCarry`, `SubtractsSetNoBorrow` and `ShiftsTakeValueFromVyFlagFromVx`. -/
theorem witness_registers_not_VF : (0x0#4 : Nibble) ≠ 0xF#4 ∧ (0xE#4 : Nibble) ≠ 0xF#4 := by decide

theorem witness_AluWithVfAsOperand :
    (0x0#4 = 0xF#4 ∨ 0xF#4 = 0xF#4) ∧ (0xF#4 = 0xF#4 ∨ 0x0#4 = 0xF#4) ∧ 0x0#4 ≠ 0xF#4 := by decide

theorem witness_RandomByteAndMask : (State.reset.withInputs 0xA7#8 true).rndIn = some 0xA7#8 := rfl

theorem witness_BcdStoresThreeDigits :
    (atI 0xFFD).dataAddr + 2 ≤ 0xFFF ∧ (atI 0xFFE).dataAddr + 2 > 0xFFF := by decide

/-- Of `StoreRegistersAtIndex`, `LoadRegistersFromIndex` and `LoadAfterStoreRestores`. -/
theorem witness_register_blocks :
    (atI 0xFFF).dataAddr + (0x0#4 : Nibble).toNat ≤ 0xFFF ∧
      (atI 0xFFF).dataAddr + (0x1#4 : Nibble).toNat > 0xFFF ∧
      (atI 0xFF0).dataAddr + (0xF#4 : Nibble).toNat ≤ 0xFFF := by decide

theorem witness_LoadAfterStoreRestores :
    ∃ t, exec (.ldMemVx 0xF#4) (atI 0xFF0) = .next t ∧
      ∃ u : State, u.mem = t.mem ∧ u.i = (atI 0xFF0).i ∧ u.reg 0x0#4 ≠ (atI 0xFF0).reg 0x0#4 :=
  ⟨_, rfl, withRegs (atI 0xFF0) [(0x0#4, 1#8)], by decide, rfl, by decide⟩

/-- Of `DrawXorsTheSprite`: no row at any `I`, and one row at the last byte; a set sprite bit over a cell
that is on, and none. -/
theorem witness_DrawXorsTheSprite :
    (0x0#4 : Nibble).toNat = 0 ∧ (atI 0xFFF).dataAddr + (0x1#4 : Nibble).toNat - 1 ≤ 0xFFF ∧
      (spriteBitAt 63 31 [0x80#8] 31 63 = true ∧
        FrameBuffer.cell (withCells State.reset [(31, 63)]).fb 31 63 = true) ∧
      FrameBuffer.cell State.reset.fb 31 63 = false := by decide

theorem witness_DrawOutOfRangeFaults :
    (0x2#4 : Nibble).toNat > 0 ∧ (atI 0xFFF).dataAddr + (0x2#4 : Nibble).toNat - 1 > 0xFFF ∧
      (0x1#4 : Nibble).toNat > 0 ∧ (atI 0x1000).dataAddr + (0x1#4 : Nibble).toNat - 1 > 0xFFF := by decide

/-- The first column and the first row outside the grid. -/
theorem witness_DrawOffScreenDrawsNothing :
    (atI 0xFFF).dataAddr + (0x1#4 : Nibble).toNat - 1 ≤ 0xFFF ∧
      ((withRegs (atI 0xFFF) [(0x1#4, 64#8)]).reg 0x1#4).toNat ≥ 64 ∧
      ((withRegs (atI 0xFFF) [(0x2#4, 32#8)]).reg 0x2#4).toNat ≥ 32 := by decide

theorem witness_DrawTwiceRestoresTheScreen :
    (0x0#4 : Nibble) ≠ 0xF#4 ∧ (0xE#4 : Nibble) ≠ 0xF#4 ∧
      (atI 0xFF1).dataAddr + (0xF#4 : Nibble).toNat - 1 ≤ 0xFFF := by decide

theorem witness_SkipOnKey :
    ((withRegs State.reset [(0x5#4, 15#8)]).reg 0x5#4).toNat = (0xF#4 : Nibble).toNat := by decide

theorem witness_KeyIndexAboveFifteenFaults :
    ((withRegs State.reset [(0x5#4, 16#8)]).reg 0x5#4).toNat > 15 := by decide

theorem witness_KeyWaitSuspendsOrStores :
    (∀ k, State.reset.key k = false) ∧
      let s := (State.reset.setKey 0x9#4 true).setKey 0x4#4 true
      s.key 0x4#4 = true ∧ ∀ j : Nibble, j.toNat < (0x4#4 : Nibble).toNat → s.key j = false := by decide

/-- Of `ReadDelayTimer` and `SetTimersThenTick`. -/
theorem witness_timers : State.reset.halt = false := rfl

/-- A call from an empty stack changes the stack, a clear of a lit screen the screen. -/
theorem witness_OnlyTheListedInstructionsWrite :
    (∃ t, exec (.call 0x300#12) State.reset = .next t ∧ ¬KeepsStack State.reset t) ∧
      ∃ t, exec (.ldI 0x300#12) State.reset = .next t ∧ ¬KeepsIndex State.reset t :=
  ⟨⟨_, rfl, fun h => absurd h.1 (by decide)⟩, _, rfl, fun h => absurd (show (0x0300#16 : Word) = 0x0000#16 from h) (by decide)⟩

theorem witness_FlagAndResultRegistersOnly :
    (∃ t, exec (.addReg 0x0#4 0x1#4) (withRegs State.reset [(0x1#4, 1#8)]) = .next t ∧
      t.reg 0x0#4 ≠ (withRegs State.reset [(0x1#4, 1#8)]).reg 0x0#4) ∧
    writesFlag (.addReg 0x0#4 0x1#4) ∧ ¬writesResult (.addReg 0x0#4 0x1#4) 0xF#4 ∧
      faultOfWord State.reset (encode (.addReg 0x0#4 0x1#4)) = none :=
  ⟨⟨_, rfl, by decide⟩, trivial,
    fun h => absurd (show (0xF#4 : Nibble) = 0x0#4 from h) (by decide), by decide⟩

theorem witness_CycleLeavesTheKeys : ∃ t, step (State.reset.setKey 0x7#4 true) = .next t := ⟨_, rfl⟩

/-- Of `RandomInputReachesOnlyRnd` and `ScreenFeedsBackOnlyIntoDraw`. -/
theorem witness_inputs_and_screen :
    (∀ x kk, Instr.ldI 0x300#12 ≠ .rnd x kk) ∧ Instr.ldI 0x300#12 ≠ .cls ∧
      (∀ x y n, Instr.ldI 0x300#12 ≠ .drw x y n) ∧ ∃ t, exec (.ldI 0x300#12) State.reset = .next t :=
  ⟨fun _ _ h => (nomatch h), fun h => (nomatch h), fun _ _ _ h => (nomatch h), _, rfl⟩

end Sys2Proof.Tests
end

section
/-! The decoder on numbered words (spec/00_scope.md R12, spec/30_encoding.md R71 to R75): what the opcode
table's numbering reads from a word is what `decodeWord` reads from it, so that a word written out is
settled by the decoder's law for its family. -/

namespace Sys2Proof

/-- A word's own number is the number the opcode table gives it. -/
@[simp] theorem tableWord_toNat (w : Word) : tableWord 16 w.toNat = w := by
  rw [tableWord, Nat.mod_eq_of_lt w.isLt, BitVec.ofNat_toNat, BitVec.setWidth_eq]

/-- The bytes of a word hold the word (R70), so the table's reading of it is `decodeWord`'s. -/
theorem decodeTableWord_toNat (w : Word) : decodeTableWord 16 w.toNat = (decodeWord w).toOption := by
  rw [decodeTableWord, tableWord_toNat, decode, wordOfBytes_split]
  cases decodeWord w <;> rfl

theorem decodeTableWord_of_ok {w : Word} {i : Instr} (h : decodeWord w = .ok i) :
    decodeTableWord 16 w.toNat = some i := by
  rw [decodeTableWord_toNat, h]; rfl

theorem decodeTableWord_of_error {w : Word} {e : Illegal} (h : decodeWord w = .error e) :
    decodeTableWord 16 w.toNat = none := by
  rw [decodeTableWord_toNat, h]; rfl

/-- Settles O5: each word by the decoder's law for its first nibble. -/
theorem wordsOfEveryFamilyDecode : Obligations.WordsOfEveryFamilyDecode := by
  unfold Obligations.WordsOfEveryFamilyDecode
  exact ⟨
    decodeTableWord_of_ok (w := 0x00E0#16) (decodeWord_family0 rfl),
    decodeTableWord_of_ok (w := 0x00EE#16) (decodeWord_family0 rfl),
    decodeTableWord_of_ok (w := 0x0123#16) (decodeWord_family0 rfl),
    decodeTableWord_of_ok (w := 0x1ABC#16) (decodeWord_family1 rfl),
    decodeTableWord_of_ok (w := 0x2300#16) (decodeWord_family2 rfl),
    decodeTableWord_of_ok (w := 0x3A2A#16) (decodeWord_family3 rfl),
    decodeTableWord_of_ok (w := 0x4A2A#16) (decodeWord_family4 rfl),
    decodeTableWord_of_ok (w := 0x5120#16) (decodeWord_family5 rfl),
    decodeTableWord_of_ok (w := 0x6A02#16) (decodeWord_family6 rfl),
    decodeTableWord_of_ok (w := 0x7A05#16) (decodeWord_family7 rfl),
    decodeTableWord_of_ok (w := 0x812E#16) (decodeWord_family8 rfl),
    decodeTableWord_of_ok (w := 0x9120#16) (decodeWord_family9 rfl),
    decodeTableWord_of_ok (w := 0xA123#16) (decodeWord_familyA rfl),
    decodeTableWord_of_ok (w := 0xB2A0#16) (decodeWord_familyB rfl),
    decodeTableWord_of_ok (w := 0xC30F#16) (decodeWord_familyC rfl),
    decodeTableWord_of_ok (w := 0xD125#16) (decodeWord_familyD rfl),
    decodeTableWord_of_ok (w := 0xE5A1#16) (decodeWord_familyE rfl),
    decodeTableWord_of_ok (w := 0xF365#16) (decodeWord_familyF rfl),
    decodeTableWord_of_error (w := 0x8128#16) (e := .family8 0x8#4) (decodeWord_family8 rfl),
    decodeTableWord_of_error (w := 0xF1FF#16) (e := .familyF 0xFF#8) (decodeWord_familyF rfl)⟩

end Sys2Proof
end

section
/-! What the decoder answers says of the word it read (spec/30_encoding.md R74, R75, R78): a decoded word is
the instruction's own, a rejected one is illegal. -/

namespace Sys2Proof

variable {w : Word} {i : Instr} {e : Illegal}

/-- A word of family `f` is packed again from `f` and its other fields, in each of the formats of R72. -/
theorem packNNN_of_family {f : Nibble} (h : fieldN1 w = f) : packNNN f (fieldNNN w) = w :=
  h ▸ packNNN_fields w

theorem packXKK_of_family {f : Nibble} (h : fieldN1 w = f) : packXKK f (fieldX w) (fieldKK w) = w :=
  h ▸ packXKK_fields w

theorem packXYN_of_family {f n : Nibble} (h : fieldN1 w = f) (hn : fieldN w = n) :
    packXYN f (fieldX w) (fieldY w) n = w :=
  h ▸ hn ▸ packXYN_fields w

/-- Family 0 holds the two `FIXED` words and the words of `SYS nnn` (R78). -/
theorem decodeFixed_encode (h : fieldN1 w = 0x0#4) :
    encode (decodeFixed w) = w ∧ (decodeFixed w).wellFormed = true := by
  have hw : packNNN 0x0#4 (fieldNNN w) = w := packNNN_of_family h
  unfold decodeFixed
  split
  · next e0 => exact ⟨e0.symm, rfl⟩
  split
  · next eE => exact ⟨eE.symm, rfl⟩
  next n0 nE =>
  refine ⟨hw, ?_⟩
  have n0' : fieldNNN w ≠ 0x0E0#12 := fun he => n0 (by rw [← hw, he]; rfl)
  have nE' : fieldNNN w ≠ 0x0EE#12 := fun he => nE (by rw [← hw, he]; rfl)
  simp [Instr.wellFormed, n0', nE']

/-- A word that decodes is the word of the instruction read, which is well formed. -/
theorem encode_of_decodeWord (h : decodeWord w = .ok i) : encode i = w ∧ i.wellFormed = true := by
  obtain f | f | f | f | f | f | f | f | f | f | f | f | f | f | f | f := family_cases w
  · cases (decodeWord_family0 f).symm.trans h
    exact decodeFixed_encode f
  · cases (decodeWord_family1 f).symm.trans h
    exact ⟨packNNN_of_family f, rfl⟩
  · cases (decodeWord_family2 f).symm.trans h
    exact ⟨packNNN_of_family f, rfl⟩
  · cases (decodeWord_family3 f).symm.trans h
    exact ⟨packXKK_of_family f, rfl⟩
  · cases (decodeWord_family4 f).symm.trans h
    exact ⟨packXKK_of_family f, rfl⟩
  · rw [decodeWord_family5 f] at h
    split at h <;> cases h
    next hn => exact ⟨packXYN_of_family f hn, rfl⟩
  · cases (decodeWord_family6 f).symm.trans h
    exact ⟨packXKK_of_family f, rfl⟩
  · cases (decodeWord_family7 f).symm.trans h
    exact ⟨packXKK_of_family f, rfl⟩
  · obtain ⟨he, hwf⟩ := decodeAlu_ok ((decodeWord_family8 f).symm.trans h)
    exact ⟨he.trans (packXYN_of_family f rfl), hwf⟩
  · rw [decodeWord_family9 f] at h
    split at h <;> cases h
    next hn => exact ⟨packXYN_of_family f hn, rfl⟩
  · cases (decodeWord_familyA f).symm.trans h
    exact ⟨packNNN_of_family f, rfl⟩
  · cases (decodeWord_familyB f).symm.trans h
    exact ⟨packNNN_of_family f, rfl⟩
  · cases (decodeWord_familyC f).symm.trans h
    exact ⟨packXKK_of_family f, rfl⟩
  · cases (decodeWord_familyD f).symm.trans h
    exact ⟨packXYN_of_family f rfl, rfl⟩
  · obtain ⟨he, hwf⟩ := decodeKey_ok ((decodeWord_familyE f).symm.trans h)
    exact ⟨he.trans (packXKK_of_family f), hwf⟩
  · obtain ⟨he, hwf⟩ := decodeMisc_ok ((decodeWord_familyF f).symm.trans h)
    exact ⟨he.trans (packXKK_of_family f), hwf⟩

/-- The last nibbles that family 8 rejects are those of R75. -/
theorem decodeAlu_error {x y n4 : Nibble} (h : decodeAlu x y n4 = .error e) :
    n4 ∈ [0x8#4, 0x9#4, 0xA#4, 0xB#4, 0xC#4, 0xD#4, 0xF#4] := by
  unfold decodeAlu at h
  split at h <;> cases h
  revert n4; decide

/-- The low bytes that family E rejects are those of R75. -/
theorem decodeKey_error {x : Nibble} {kk : Byte} (h : decodeKey x kk = .error e) :
    kk ∉ [0x9E#8, 0xA1#8] := by
  unfold decodeKey at h
  split at h <;> cases h
  simp_all

/-- The low bytes that family F rejects are those of R75. -/
theorem decodeMisc_error {x : Nibble} {kk : Byte} (h : decodeMisc x kk = .error e) :
    kk ∉ [0x07#8, 0x0A#8, 0x15#8, 0x18#8, 0x1E#8, 0x29#8, 0x33#8, 0x55#8, 0x65#8] := by
  unfold decodeMisc at h
  split at h <;> cases h
  simp_all

end Sys2Proof

namespace Sys2Proof.Machine

/-- A word that does not decode is an illegal word of R75. -/
theorem illegalWord_of_decodeWord_error {w : Word} {e : Illegal} (h : decodeWord w = .error e) :
    illegalWord w = true := by
  rw [illegalWord_iff]
  obtain f | f | f | f | f | f | f | f | f | f | f | f | f | f | f | f := family_cases w
  · cases (decodeWord_family0 f).symm.trans h
  · cases (decodeWord_family1 f).symm.trans h
  · cases (decodeWord_family2 f).symm.trans h
  · cases (decodeWord_family3 f).symm.trans h
  · cases (decodeWord_family4 f).symm.trans h
  · rw [decodeWord_family5 f] at h
    split at h <;> cases h
    next hn => exact .inr (.inl ⟨f, hn⟩)
  · cases (decodeWord_family6 f).symm.trans h
  · cases (decodeWord_family7 f).symm.trans h
  · exact .inr (.inr (.inl ⟨f, decodeAlu_error ((decodeWord_family8 f).symm.trans h)⟩))
  · rw [decodeWord_family9 f] at h
    split at h <;> cases h
    next hn => exact .inr (.inr (.inr (.inl ⟨f, hn⟩)))
  · cases (decodeWord_familyA f).symm.trans h
  · cases (decodeWord_familyB f).symm.trans h
  · cases (decodeWord_familyC f).symm.trans h
  · cases (decodeWord_familyD f).symm.trans h
  · exact .inr (.inr (.inr (.inr (.inl ⟨f, decodeKey_error ((decodeWord_familyE f).symm.trans h)⟩))))
  · exact .inr (.inr (.inr (.inr (.inr ⟨f, decodeMisc_error ((decodeWord_familyF f).symm.trans h)⟩))))

end Sys2Proof.Machine
end

section
/-! The fault an instruction raises, read from its constructor instead of its word (spec/60_exceptions.md
R191 to R194). -/

namespace Sys2Proof.Machine

/-- The fault the instruction `i` raises in state `s`, if any, constructor by constructor (R191 to R194). -/
def State.instrFault (s : State) : Instr → Option FaultKind
  | .sys _ => some .unsupportedInstruction
  | .ret => if s.sp.val = 0 then some .stackUnderflow else none
  | .call _ => if s.sp.val = 12 then some .stackOverflow else none
  | .ldB _ => if s.dataAddr + 2 > 0xFFF then some .memoryOutOfRange else none
  | .ldMemVx x | .ldVxMem x => if s.dataAddr + x.toNat > 0xFFF then some .memoryOutOfRange else none
  | .drw _ _ n =>
    if n.toNat > 0 ∧ s.dataAddr + n.toNat - 1 > 0xFFF then some .memoryOutOfRange else none
  | .skp x | .sknp x => if (s.reg x).toNat > 15 then some .unsupportedInstruction else none
  | _ => none

/-- Outside family 0 a word is not that of `00EE`. -/
theorem ne_retWord {w : Word} (h : fieldN1 w ≠ 0x0#4) : w ≠ 0x00EE#16 := fun e => h (by rw [e]; rfl)

/-- The words of well-formed `SYS nnn` terms are illegal (R75). -/
theorem illegalWord_sys {nnn : Addr12} (h : (Instr.sys nnn).wellFormed = true) :
    illegalWord (encode (.sys nnn)) = true := by
  simp only [Instr.wellFormed, Bool.and_eq_true, bne_iff_ne] at h
  obtain ⟨hcls, hret⟩ := h
  refine (illegalWord_iff _).2 (.inl ⟨fieldN1_packNNN 0x0#4 nnn, fun e => hcls ?_, fun e => hret ?_⟩)
  · exact (packNNN_inj.1 (e.trans (show 0x00E0#16 = packNNN 0x0#4 0x0E0#12 from rfl))).2
  · exact (packNNN_inj.1 (e.trans (show 0x00EE#16 = packNNN 0x0#4 0x0EE#12 from rfl))).2

/-- A well-formed instruction raises the fault of its word. Only `SYS nnn` and `00EE` are told by the whole
word; for every other row the fields packed into it select the line of `faultOfWord`. -/
theorem faultOfWord_encode (s : State) {i : Instr} (h : i.wellFormed = true) :
    faultOfWord s (encode i) = s.instrFault i := by
  cases i
  case cls => rfl
  case ret =>
    have legal : ¬illegalWord (encode .ret) = true := by decide
    rw [faultOfWord, if_neg legal, State.instrFault]
    by_cases hs : s.sp.val = 0
    · rw [if_pos ⟨rfl, hs⟩, if_pos hs]
    · rw [if_neg (fun e => hs e.2), if_neg hs]; rfl
  case sys nnn => rw [faultOfWord, if_pos (illegalWord_sys h)]; rfl
  all_goals
    simp [faultOfWord_eq, illegalWord_iff, State.instrFault, State.dataAddr, encode, ne_retWord]

end Sys2Proof.Machine
end

section
/-! What an instruction can do, once (spec/40_engine_cycle.md R94, R95; spec/10_state.md R20 to R26): it
takes its fault and does nothing else, or it has one of the effects below. Statements about every
instruction are read from these cases. -/

namespace Sys2Proof.Machine

/-- The state after an instruction that does not fault, by what it writes besides `PC`. -/
inductive Effect (s : State) : Instr → State → Prop
  /-- Jumps, skips, and the suspended `Fx0A`. -/
  | pcOnly {i : Instr} (a : Word) (noFlag : ¬writesFlag i) : Effect s i { s with pc := a }
  /-- The instructions with one result register and no flag. -/
  | result {i : Instr} {x : Nibble} (b : Byte) (hx : writesResult i x) (noFlag : ¬writesFlag i) :
      Effect s i (s.setReg x b).advance
  /-- `8xy4` to `8xy7` and `8xyE`. -/
  | flagAndResult {i : Instr} {x : Nibble} (flag : Bool) (b : Byte) (hx : writesResult i x)
      (hf : writesFlag i) : Effect s i (s.flagThenResult flag x b).advance
  /-- `00E0`. -/
  | clear : Effect s .cls (s.setFb FrameBuffer.dark).advance
  /-- `Dxyn`. -/
  | draw (x y n : Nibble) (fb : FrameBuffer) (hit : Bool) :
      Effect s (.drw x y n) ((s.setFb fb).setReg vf (flagByte hit)).advance
  /-- `00EE`: the slots stay (R24). -/
  | pop (sp : Fin 13) (a : Word) : Effect s .ret { s with sp := sp, pc := a }
  /-- `2nnn`. -/
  | push (nnn : Addr12) (sp : Fin 13) (stack : Vector Word 12) (a : Word) :
      Effect s (.call nnn) { s with sp := sp, stack := stack, pc := a }
  /-- `Annn`, `Fx1E`, `Fx29`. -/
  | index {i : Instr} (w : Word) (hi : (∃ nnn, i = .ldI nnn) ∨ ∃ x, i = .addI x ∨ i = .ldF x) :
      Effect s i (s.setI w).advance
  /-- `Fx33`, after its bounds check (R53). -/
  | storeDigits (x : Nibble) (bs : List Byte) (fits : s.dataAddr + bs.length ≤ 0x1000) :
      Effect s (.ldB x) (s.setMem (Memory.writeRange s.mem s.dataAddr bs)).advance
  /-- `Fx55`, after its bounds check. -/
  | storeRegs (x : Nibble) (bs : List Byte) (w : Word) (fits : s.dataAddr + bs.length ≤ 0x1000) :
      Effect s (.ldMemVx x) ((s.setMem (Memory.writeRange s.mem s.dataAddr bs)).setI w).advance
  /-- `Fx65`: the registers above `V[x]` stay. -/
  | loadRegs (x : Nibble) (v : Vector Byte 16) (w : Word)
      (kept : ∀ r : Nibble, ¬r.toNat ≤ x.toNat → State.reg { s with v := v } r = s.reg r) :
      Effect s (.ldVxMem x) { s with v := v, i := w, pc := s.pc + 2#16 }
  /-- `Fx15`. -/
  | delay (x : Nibble) : Effect s (.ldDtVx x) (s.setDt (s.reg x)).advance
  /-- `Fx18`. -/
  | sound (x : Nibble) : Effect s (.ldStVx x) (s.setSt (s.reg x)).advance

variable {s t : State} {i : Instr}

/-- A skip instruction writes `PC` only. -/
theorem Effect.skipIf (c : Bool) (noFlag : ¬writesFlag i) : Effect s i (s.skipIf c) :=
  s.skipIf_eq c ▸ .pcOnly _ noFlag

/-- The two outcomes of an instruction: it takes its fault (R95, R198), or it completes with its effect. -/
def HasOutcome (s : State) (i : Instr) : Prop :=
  (∃ k, s.instrFault i = some k ∧ exec i s = .next (s.raise k i)) ∨
    (s.instrFault i = none ∧ ∃ t, exec i s = .next t ∧ Effect s i t)

/-- The outcomes of `00EE` are those of a pop (R110). -/
theorem hasOutcome_ret (s : State) : HasOutcome s .ret := by
  cases hp : s.pop with
  | none => exact .inl ⟨_, if_pos (State.pop_none.1 hp), by rw [exec, execRet, hp]⟩
  | some p =>
    obtain ⟨a, t⟩ := p
    have occupied : s.sp.val ≠ 0 := fun e => by simp [State.pop_none.2 e] at hp
    refine .inr ⟨if_neg occupied, t.jump a, by rw [exec, execRet, hp], ?_⟩
    obtain ⟨_, _, _, rfl⟩ := State.pop_some hp
    exact .pop _ _

/-- The outcomes of `2nnn` are those of a push (R113). -/
theorem hasOutcome_call (s : State) (nnn : Addr12) : HasOutcome s (.call nnn) := by
  cases hp : s.push (s.pc + 2#16) with
  | none => exact .inl ⟨_, if_pos (State.push_none.1 hp), by rw [exec, execCall, hp]⟩
  | some t =>
    have free : s.sp.val ≠ 12 := fun e => by simp [State.push_none.2 e] at hp
    refine .inr ⟨if_neg free, t.jump (zextAddr nnn), by rw [exec, execCall, hp], ?_⟩
    obtain ⟨_, rfl⟩ := State.push_some hp
    exact .push _ _ _ _

/-- The outcomes of `Dxyn` are those of reading its rows (R166). -/
theorem hasOutcome_drw (s : State) (x y n : Nibble) : HasOutcome s (.drw x y n) := by
  by_cases fits : n.toNat = 0 ∨ s.dataAddr + n.toNat - 1 ≤ 0xFFF
  · have hr := (s.memRead_eq s.dataAddr n.toNat).trans (if_pos fits)
    exact .inr ⟨if_neg (by omega), _, by rw [exec, execDrw, hr], .draw x y n _ _⟩
  · have hr := (s.memRead_eq s.dataAddr n.toNat).trans (if_neg fits)
    exact .inl ⟨_, if_pos (by omega), by rw [exec, execDrw, hr]⟩

/-- The outcomes of `Ex9E` are those of its key index (R175, R181). -/
theorem hasOutcome_skp (s : State) (x : Nibble) : HasOutcome s (.skp x) := by
  by_cases hk : (s.reg x).toNat ≤ 15
  · have hi := (keyIndex_eq (s.reg x)).trans (if_pos hk)
    exact .inr ⟨if_neg (by omega), _, by rw [exec, execSkp, hi], .skipIf _ id⟩
  · have hi := (keyIndex_eq (s.reg x)).trans (if_neg hk)
    exact .inl ⟨_, if_pos (by omega), by rw [exec, execSkp, hi]⟩

/-- The outcomes of `ExA1` are those of its key index (R176, R181). -/
theorem hasOutcome_sknp (s : State) (x : Nibble) : HasOutcome s (.sknp x) := by
  by_cases hk : (s.reg x).toNat ≤ 15
  · have hi := (keyIndex_eq (s.reg x)).trans (if_pos hk)
    exact .inr ⟨if_neg (by omega), _, by rw [exec, execSknp, hi], .skipIf _ id⟩
  · have hi := (keyIndex_eq (s.reg x)).trans (if_neg hk)
    exact .inl ⟨_, if_pos (by omega), by rw [exec, execSknp, hi]⟩

/-- `Fx0A` never faults: it suspends or stores the key found (R177). -/
theorem hasOutcome_ldVxK (s : State) (x : Nibble) : HasOutcome s (.ldVxK x) := by
  cases hk : s.lowestKey with
  | none => exact .inr ⟨rfl, s.suspend, by rw [exec, execLdVxK, hk], .pcOnly s.pc id⟩
  | some k => exact .inr ⟨rfl, _, by rw [exec, execLdVxK, hk], .result _ rfl id⟩

/-- The outcomes of `Fx33` are those of writing three digits (R153). -/
theorem hasOutcome_ldB (s : State) (x : Nibble) : HasOutcome s (.ldB x) := by
  have len : (decimalDigits (s.reg x)).length = 3 := rfl
  by_cases fits : s.dataAddr + 2 ≤ 0xFFF
  · have hw := (s.memWrite_eq s.dataAddr (decimalDigits (s.reg x))).trans (if_pos (by omega))
    exact .inr ⟨if_neg (by omega), _, by rw [exec, execLdB, hw], .storeDigits x _ (by omega)⟩
  · have hw := (s.memWrite_eq s.dataAddr (decimalDigits (s.reg x))).trans (if_neg (by omega))
    exact .inl ⟨_, if_pos (by omega), by rw [exec, execLdB, hw]⟩

/-- The outcomes of `Fx55` are those of writing its block (R154). -/
theorem hasOutcome_ldMemVx (s : State) (x : Nibble) : HasOutcome s (.ldMemVx x) := by
  have len := s.regBlock_length x
  by_cases fits : s.dataAddr + x.toNat ≤ 0xFFF
  · have hw := (s.memWrite_eq s.dataAddr (s.regBlock x)).trans (if_pos (by omega))
    exact .inr ⟨if_neg (by omega), _, by rw [exec, execLdMemVx, hw], .storeRegs x _ _ (by omega)⟩
  · have hw := (s.memWrite_eq s.dataAddr (s.regBlock x)).trans (if_neg (by omega))
    exact .inl ⟨_, if_pos (by omega), by rw [exec, execLdMemVx, hw]⟩

/-- Loading a block of `x + 1` bytes leaves the registers above `V[x]` alone (R155). -/
theorem State.reg_setRegsFrom_above {s : State} {x r : Nibble} {bs : List Byte}
    (len : bs.length = x.toNat + 1) (h : ¬r.toNat ≤ x.toNat) : (s.setRegsFrom 0 bs).reg r = s.reg r := by
  have := x.isLt
  rw [State.reg_setRegsFrom s 0 bs (by omega), dif_neg (by omega)]

/-- The outcomes of `Fx65` are those of reading its block (R155). -/
theorem hasOutcome_ldVxMem (s : State) (x : Nibble) : HasOutcome s (.ldVxMem x) := by
  by_cases fits : s.dataAddr + x.toNat ≤ 0xFFF
  · have hr := (s.memRead_eq s.dataAddr (x.toNat + 1)).trans (if_pos (by omega))
    have kept (r : Nibble) := State.reg_setRegsFrom_above (s := s) (x := x) (r := r)
      (Memory.readRange_length s.mem s.dataAddr (x.toNat + 1))
    obtain ⟨v, hv⟩ := s.setRegsFrom_only_v 0 (Memory.readRange s.mem s.dataAddr (x.toNat + 1))
    rw [hv] at kept
    refine .inr ⟨if_neg (by omega), _, ?_, .loadRegs x v (s.indexAfterBlock x) kept⟩
    simp only [exec, execLdVxMem, hr, hv]; rfl
  · have hr := (s.memRead_eq s.dataAddr (x.toNat + 1)).trans (if_neg (by omega))
    exact .inl ⟨_, if_pos (by omega), by rw [exec, execLdVxMem, hr]⟩

/-- Every instruction has one of the two outcomes in every state. -/
theorem hasOutcome (s : State) (i : Instr) : HasOutcome s i := by
  cases i with
  | cls => exact .inr ⟨rfl, _, rfl, .clear⟩
  | ret => exact hasOutcome_ret s
  | sys nnn => exact .inl ⟨_, rfl, rfl⟩
  | jp nnn => exact .inr ⟨rfl, _, rfl, .pcOnly _ id⟩
  | call nnn => exact hasOutcome_call s nnn
  | seImm x kk => exact .inr ⟨rfl, _, rfl, .skipIf _ id⟩
  | sneImm x kk => exact .inr ⟨rfl, _, rfl, .skipIf _ id⟩
  | seReg x y => exact .inr ⟨rfl, _, rfl, .skipIf _ id⟩
  | ldImm x kk => exact .inr ⟨rfl, _, rfl, .result _ rfl id⟩
  | addImm x kk => exact .inr ⟨rfl, _, rfl, .result _ rfl id⟩
  | ldReg x y => exact .inr ⟨rfl, _, rfl, .result _ rfl id⟩
  | orReg x y => exact .inr ⟨rfl, _, rfl, .result _ rfl id⟩
  | andReg x y => exact .inr ⟨rfl, _, rfl, .result _ rfl id⟩
  | xorReg x y => exact .inr ⟨rfl, _, rfl, .result _ rfl id⟩
  | addReg x y => exact .inr ⟨rfl, _, rfl, .flagAndResult _ _ rfl trivial⟩
  | subReg x y => exact .inr ⟨rfl, _, rfl, .flagAndResult _ _ rfl trivial⟩
  | shr x y => exact .inr ⟨rfl, _, rfl, .flagAndResult _ _ rfl trivial⟩
  | subn x y => exact .inr ⟨rfl, _, rfl, .flagAndResult _ _ rfl trivial⟩
  | shl x y => exact .inr ⟨rfl, _, rfl, .flagAndResult _ _ rfl trivial⟩
  | sneReg x y => exact .inr ⟨rfl, _, rfl, .skipIf _ id⟩
  | ldI nnn => exact .inr ⟨rfl, _, rfl, .index _ (.inl ⟨nnn, rfl⟩)⟩
  | jpV0 nnn => exact .inr ⟨rfl, _, rfl, .pcOnly _ id⟩
  | rnd x kk => exact .inr ⟨rfl, _, rfl, .result _ rfl id⟩
  | drw x y n => exact hasOutcome_drw s x y n
  | skp x => exact hasOutcome_skp s x
  | sknp x => exact hasOutcome_sknp s x
  | ldVxDt x => exact .inr ⟨rfl, _, rfl, .result _ rfl id⟩
  | ldVxK x => exact hasOutcome_ldVxK s x
  | ldDtVx x => exact .inr ⟨rfl, _, rfl, .delay x⟩
  | ldStVx x => exact .inr ⟨rfl, _, rfl, .sound x⟩
  | addI x => exact .inr ⟨rfl, _, rfl, .index _ (.inr ⟨x, .inl rfl⟩)⟩
  | ldF x => exact .inr ⟨rfl, _, rfl, .index _ (.inr ⟨x, .inr rfl⟩)⟩
  | ldB x => exact hasOutcome_ldB s x
  | ldMemVx x => exact hasOutcome_ldMemVx s x
  | ldVxMem x => exact hasOutcome_ldVxMem s x

/-- Everything an instruction that answers a next state can have done. -/
theorem exec_cases (h : exec i s = .next t) :
    (∃ k, s.instrFault i = some k ∧ t = s.raise k i) ∨ (s.instrFault i = none ∧ Effect s i t) := by
  obtain ⟨k, hk, he⟩ | ⟨hn, u, he, hu⟩ := hasOutcome s i
  · exact .inl ⟨k, hk, Host.Outcome.next.inj (h.symm.trans he)⟩
  · cases Host.Outcome.next.inj (he.symm.trans h)
    exact .inr ⟨hn, hu⟩

end Sys2Proof.Machine
end

section
/-! What the effects leave unchanged, one law per kind of state, and the statements about who writes what
(spec/10_state.md R20 to R26). -/

namespace Sys2Proof.Machine

variable {s t : State} {i : Instr}

theorem Effect.keepsStack (e : Effect s i t) : KeepsStack s t ∨ i = .ret ∨ ∃ nnn, i = .call nnn := by
  cases e
  case pop => exact .inr (.inl rfl)
  case push nnn _ _ _ => exact .inr (.inr ⟨nnn, rfl⟩)
  all_goals exact .inl ⟨rfl, rfl⟩

theorem Effect.keepsScreen (e : Effect s i t) : KeepsScreen s t ∨ i = .cls ∨ ∃ x y n, i = .drw x y n := by
  cases e
  case clear => exact .inr (.inl rfl)
  case draw x y n _ _ => exact .inr (.inr ⟨x, y, n, rfl⟩)
  all_goals exact .inl rfl

theorem Effect.keepsMem (e : Effect s i t) : KeepsMem s t ∨ ∃ x, i = .ldB x ∨ i = .ldMemVx x := by
  cases e
  case storeDigits x _ _ => exact .inr ⟨x, .inl rfl⟩
  case storeRegs x _ _ _ => exact .inr ⟨x, .inr rfl⟩
  all_goals exact .inl fun _ => rfl

theorem Effect.keepsIndex (e : Effect s i t) : KeepsIndex s t ∨ (∃ nnn, i = .ldI nnn) ∨
    ∃ x, i = .addI x ∨ i = .ldF x ∨ i = .ldMemVx x ∨ i = .ldVxMem x := by
  cases e
  case index w hi =>
    obtain hi | ⟨x, hi | hi⟩ := hi
    · exact .inr (.inl hi)
    · exact .inr (.inr ⟨x, .inl hi⟩)
    · exact .inr (.inr ⟨x, .inr (.inl hi)⟩)
  case storeRegs x _ _ _ => exact .inr (.inr ⟨x, .inr (.inr (.inl rfl))⟩)
  case loadRegs x _ _ _ => exact .inr (.inr ⟨x, .inr (.inr (.inr rfl))⟩)
  all_goals exact .inl rfl

theorem Effect.keepsDt (e : Effect s i t) : t.dt = s.dt ∨ ∃ x, i = .ldDtVx x := by
  cases e
  case delay x => exact .inr ⟨x, rfl⟩
  all_goals exact .inl rfl

theorem Effect.keepsSt (e : Effect s i t) : t.st = s.st ∨ ∃ x, i = .ldStVx x := by
  cases e
  case sound x => exact .inr ⟨x, rfl⟩
  all_goals exact .inl rfl

/-- No effect touches the latch (R198: only a fault does). -/
theorem Effect.keepsLatch (e : Effect s i t) : KeepsLatch s t := by
  cases e <;> exact ⟨rfl, rfl, rfl, rfl, rfl⟩

/-- No effect touches the keys or the inputs (R27, R31). -/
theorem Effect.keepsInputs (e : Effect s i t) : KeepsInputs s t := by
  cases e <;> exact ⟨rfl, rfl, rfl, rfl⟩

/-- Every effect keeps the canonical form of memory: what is stored was checked to fit (R53, R95). -/
theorem Effect.mem_wf (e : Effect s i t) (h : Memory.wf s.mem) : Memory.wf t.mem := by
  cases e
  case storeDigits x bs fits => exact Memory.writeRange_wf _ _ _ h fits
  case storeRegs x bs w fits => exact Memory.writeRange_wf _ _ _ h fits
  all_goals exact h

/-- The registers an effect writes: the instruction's result, and `VF` where it has a flag (R20, R21). -/
theorem Effect.reg_eq_or (e : Effect s i t) (r : Nibble) :
    t.reg r = s.reg r ∨ writesResult i r ∨ (r = 0xF#4 ∧ writesFlag i) := by
  cases e
  case result x b hx noFlag =>
    by_cases hr : r = x
    · exact .inr (.inl (hr ▸ hx))
    · exact .inl (by simp [hr])
  case flagAndResult x flag b hx hf =>
    by_cases hr : r = x
    · exact .inr (.inl (hr ▸ hx))
    · by_cases hv : r = vf
      · exact .inr (.inr ⟨hv, hf⟩)
      · exact .inl (by simp [hr, hv])
  case draw x y n fb hit =>
    by_cases hv : r = vf
    · exact .inr (.inr ⟨hv, trivial⟩)
    · exact .inl (by simp [hv])
  case loadRegs x v w kept =>
    by_cases hr : r.toNat ≤ x.toNat
    · exact .inr (.inl hr)
    · exact .inl (kept r hr)
  all_goals exact .inl rfl

/-- A flag is 0 or 1 (R21). -/
theorem flagByte_bit (flag : Bool) : flagByte flag = 0#8 ∨ flagByte flag = 1#8 := by
  cases flag
  · exact .inl rfl
  · exact .inr rfl

/-- A flag stays in `VF` unless the result goes there too (R21, R97). -/
theorem Effect.flag_bit (e : Effect s i t) (hf : writesFlag i) (hv : ¬writesResult i 0xF#4) :
    t.reg 0xF#4 = 0#8 ∨ t.reg 0xF#4 = 1#8 := by
  cases e
  case pcOnly noFlag => exact absurd hf noFlag
  case result noFlag => exact absurd hf noFlag
  case flagAndResult x flag b hx _ =>
    have hne : ¬0xF#4 = x := fun e => hv (e ▸ hx)
    simpa [hne] using flagByte_bit flag
  case draw x y n fb hit => simpa using flagByte_bit hit
  case index hi => obtain ⟨_, rfl⟩ | ⟨_, rfl | rfl⟩ := hi <;> exact hf.elim
  all_goals exact hf.elim

/-- Settles O55: a fault writes the latch only, and each effect names its instructions. -/
theorem onlyTheListedInstructionsWrite : Obligations.OnlyTheListedInstructionsWrite := by
  unfold Obligations.OnlyTheListedInstructionsWrite
  intro i s t h
  obtain ⟨k, -, rfl⟩ | ⟨-, e⟩ := exec_cases h
  · exact ⟨absurd ⟨rfl, rfl⟩, absurd rfl, absurd fun _ => rfl, absurd rfl, absurd rfl, absurd rfl⟩
  · exact ⟨e.keepsStack.resolve_left, e.keepsScreen.resolve_left, e.keepsMem.resolve_left,
      e.keepsIndex.resolve_left, e.keepsDt.resolve_left, e.keepsSt.resolve_left⟩

/-- A flag writer is a well-formed instruction: it is no `SYS nnn`. -/
theorem wellFormed_of_writesFlag (h : writesFlag i) : i.wellFormed = true := by
  cases i
  case sys => exact h.elim
  all_goals rfl

/-- Settles O56: a fault writes no register; without one, the effect says which it writes. -/
theorem flagAndResultRegistersOnly : Obligations.FlagAndResultRegistersOnly := by
  unfold Obligations.FlagAndResultRegistersOnly
  intro i s t r h
  obtain ⟨k, hk, rfl⟩ | ⟨-, e⟩ := exec_cases h
  · refine ⟨absurd rfl, fun hf _ noFault => ?_⟩
    rw [faultOfWord_encode s (wellFormed_of_writesFlag hf), hk] at noFault
    cases noFault
  · exact ⟨(e.reg_eq_or r).resolve_left, fun hf hv _ => e.flag_bit hf hv⟩

end Sys2Proof.Machine
end

section
/-! One cycle from every state, by what the state lets it do (spec/40_engine_cycle.md R90), and what
every cycle keeps. -/

namespace Sys2Proof.Machine

variable {s t : State}

/-- What the end of a cycle can write: the timers, `BEEP`, and the model's own inputs (R98, R206). -/
theorem State.finishCycle_only_timers (s : State) : ∃ dt st beep,
    s.finishCycle = ({ s with dt := dt, st := st, beep := beep } : State).nextInputs := by
  by_cases h : s.halt = true
  · exact ⟨_, _, _, State.finishCycle_of_halt h⟩
  have h := Bool.eq_false_of_not_eq_true h
  by_cases en : s.timerEn = true
  · exact ⟨_, _, _, State.finishCycle_of_timers h en⟩
  · exact ⟨_, _, _, State.finishCycle_of_no_timers h (Bool.eq_false_of_not_eq_true en)⟩

/-- A cycle that faulted ends with no timer phase (R98). -/
@[simp] theorem State.finishCycle_enterFault (s : State) (k : FaultKind) (w p : Word) :
    (s.enterFault k w p).finishCycle = (s.enterFault k w p).nextInputs :=
  State.finishCycle_of_halt rfl

/-- The end of a cycle leaves the fault that is due as it is. -/
@[simp] theorem State.faultDue_nextInputs (s : State) : s.nextInputs.faultDue = s.faultDue :=
  State.faultDue_congr rfl rfl rfl rfl rfl

/-- Taking a fault leaves the fault that is due as it is (R199: re-running would raise it again). -/
@[simp] theorem State.faultDue_enterFault (s : State) (k : FaultKind) (w p : Word) :
    (s.enterFault k w p).faultDue = s.faultDue :=
  State.faultDue_congr rfl rfl rfl rfl rfl

/-- The fault that is due where a word can be fetched is the word's (R197). -/
theorem State.faultDue_of_pc_le (h : s.pc.toNat ≤ 0xFFE) :
    s.faultDue = (faultOfWord s s.wordAtPc).map fun k => (k, s.wordAtPc) :=
  if_neg (Nat.not_lt.2 h)

/-- Fetch and decode answer the fault that is due (R92, R93), or the instruction that the word at `PC`
encodes, whose own fault is then the one that is due. -/
theorem State.fetchInstr_cases (s : State) :
    (∃ f, s.fetchInstr = .error f ∧ s.faultDue = some f) ∨
    (∃ i, s.fetchInstr = .ok i ∧ encode i = s.wordAtPc ∧
      s.faultDue = (s.instrFault i).map fun k => (k, encode i)) := by
  by_cases outside : s.pc.toNat > 0xFFE
  · exact .inl ⟨_, by rw [State.fetchInstr, State.fetchWord_none outside], if_pos outside⟩
  have inside := Nat.not_lt.1 outside
  rw [State.fetchInstr, State.fetchWord_eq inside, State.faultDue_of_pc_le inside]
  cases hd : decodeWord s.wordAtPc with
  | error e =>
    refine .inl ⟨_, by simp only [hd]; rfl, ?_⟩
    rw [faultOfWord, if_pos (illegalWord_of_decodeWord_error hd)]; rfl
  | ok i =>
    obtain ⟨hw, hwf⟩ := encode_of_decodeWord hd
    exact .inr ⟨i, by simp only [hd], hw, by rw [← hw, faultOfWord_encode s hwf]⟩

/-- The three ways a cycle can go: halted, nothing happens (R91); the fault that is due is taken (R198);
or none is due and the instruction at `PC` completes, and with it the cycle (R94, R98). -/
inductive Cycle (s : State) : State → Prop
  | halted (h : s.halt = true) : Cycle s s
  | faulted {f : FaultKind × Word} (running : s.halt = false) (due : s.faultDue = some f) :
      Cycle s (s.enterFault f.1 f.2 s.pc).nextInputs
  | completed {i : Instr} {u : State} (running : s.halt = false) (noFault : s.faultDue = none)
      (hw : encode i = s.wordAtPc) (e : Effect s i u) : Cycle s u.finishCycle

/-- Every state has a next one, reached in one of the three ways. -/
theorem step_cycle (s : State) : ∃ t, step s = .next t ∧ Cycle s t := by
  by_cases h : s.halt = true
  · exact ⟨s, if_pos h, .halted h⟩
  have running := Bool.eq_false_of_not_eq_true h
  rw [step, if_neg h]
  obtain ⟨f, hf, due⟩ | ⟨i, hi, hw, due⟩ := s.fetchInstr_cases
  · exact ⟨_, by simp only [hf, State.finishCycle_enterFault], .faulted running due⟩
  · obtain ⟨k, hk, he⟩ | ⟨hn, u, he, hu⟩ := hasOutcome s i
    · exact ⟨_, by simp only [hi, he, State.raise_eq, State.finishCycle_enterFault],
        .faulted (f := (k, encode i)) running (by rw [due, hk]; rfl)⟩
    · exact ⟨_, by simp only [hi, he], .completed running (by rw [due, hn]; rfl) hw hu⟩

/-- A next state that `step` answers was reached in one of the three ways. -/
theorem cycle_of_step (h : step s = .next t) : Cycle s t := by
  obtain ⟨u, hu, c⟩ := step_cycle s
  exact Host.Outcome.next.inj (hu.symm.trans h) ▸ c

/-- Settles O57: neither a fault, an effect nor the end of a cycle writes a key or `timer_en`. -/
theorem cycleLeavesTheKeys : Obligations.CycleLeavesTheKeys := by
  unfold Obligations.CycleLeavesTheKeys
  intro s t h
  cases cycle_of_step h with
  | halted => exact ⟨rfl, rfl⟩
  | faulted => exact ⟨rfl, rfl⟩
  | completed _ _ _ e =>
    obtain ⟨keys, timerEn, -, -⟩ := e.keepsInputs
    obtain ⟨dt, st, beep, hu⟩ := State.finishCycle_only_timers _
    rw [hu]
    exact ⟨keys, timerEn⟩

/-- A state that is not halted meets the invariant when its memory is canonical and its latch clear. -/
theorem State.inv_of_running (mem : Memory.wf s.mem) (running : s.halt = false)
    (latch : s.fkind = 0#3 ∧ s.fword = 0#16 ∧ s.fpc = 0#16) : s.Inv :=
  ⟨mem, fun _ => latch, fun halted => by simp [running] at halted⟩

/-- Taking the fault that is due sets up the invariant of a halted engine (R196, R198, R199). -/
theorem State.inv_enterFault {f : FaultKind × Word} (mem : Memory.wf s.mem) (due : s.faultDue = some f) :
    (s.enterFault f.1 f.2 s.pc).nextInputs.Inv := by
  refine ⟨mem, fun running => absurd running (by simp), fun _ => ⟨rfl, rfl, f, ?_, rfl, rfl⟩⟩
  rw [State.faultDue_nextInputs, State.faultDue_enterFault, due]

/-- Settles O15, by the three ways a cycle can go. -/
theorem stepKeepsInvariant : Obligations.StepKeepsInvariant := by
  unfold Obligations.StepKeepsInvariant
  intro s t inv h
  cases cycle_of_step h with
  | halted => exact inv
  | faulted _ due => exact State.inv_enterFault inv.1 due
  | completed running _ _ e =>
    obtain ⟨mem, clear, -⟩ := inv
    obtain ⟨fkind, fword, fpc⟩ := clear running
    obtain ⟨halt', fkind', fword', fpc', -⟩ := e.keepsLatch
    obtain ⟨dt, st, beep, hu⟩ := State.finishCycle_only_timers _
    rw [hu]
    exact State.inv_of_running (e.mem_wf mem) (halt'.trans running)
      ⟨fkind'.trans fkind, fword'.trans fword, fpc'.trans fpc⟩

end Sys2Proof.Machine
end

section
/-! The state after reset (spec/10_state.md R35). -/

namespace Sys2Proof.Machine

/-- Settles O14: after reset nothing is latched and memory lists no byte. -/
theorem resetMeetsInvariant : Obligations.ResetMeetsInvariant := by
  unfold Obligations.ResetMeetsInvariant
  exact State.inv_of_running Memory.reset_wf rfl ⟨rfl, rfl, rfl⟩

/-- A byte after reset is the font's, and zero above it (R51). -/
theorem State.byteAt_reset (a : Nat) : State.reset.byteAt a = fontRom.getD a 0#8 := rfl

/-- Settles O19: `Vector.replicate` gives keys and slots, the font table the bytes below 0x050. -/
theorem resetLatchKeysAndMemory : Obligations.ResetLatchKeysAndMemory := by
  unfold Obligations.ResetLatchKeysAndMemory
  refine ⟨rfl, rfl, rfl, rfl, rfl, fun k => ?_, fun k => ?_, fun a h => Memory.base_above a h, rfl,
    fun a h => ?_, by decide⟩
  · exact Vector.getElem_replicate k.isLt
  · exact Vector.getElem_replicate k.isLt
  · rw [State.byteAt_reset, List.getD_eq_getElem _ _ h]

end Sys2Proof.Machine
end

section
/-! Words and instructions row by row of the opcode map (spec/30_encoding.md R74, R78): a word that a row's
mask and match select is read as the row's instruction with the word's own fields. Both directions of the
round trip, the opcode map itself and the illegal words of R75 follow. -/

namespace Sys2Proof

variable {w : Word} {i j : Instr}

/-- The instruction of the same row with the fields of the word `w` (R71). -/
def Instr.withFields (w : Word) : Instr → Instr
  | .cls => .cls
  | .ret => .ret
  | .sys _ => .sys (fieldNNN w)
  | .jp _ => .jp (fieldNNN w)
  | .call _ => .call (fieldNNN w)
  | .seImm _ _ => .seImm (fieldX w) (fieldKK w)
  | .sneImm _ _ => .sneImm (fieldX w) (fieldKK w)
  | .seReg _ _ => .seReg (fieldX w) (fieldY w)
  | .ldImm _ _ => .ldImm (fieldX w) (fieldKK w)
  | .addImm _ _ => .addImm (fieldX w) (fieldKK w)
  | .ldReg _ _ => .ldReg (fieldX w) (fieldY w)
  | .orReg _ _ => .orReg (fieldX w) (fieldY w)
  | .andReg _ _ => .andReg (fieldX w) (fieldY w)
  | .xorReg _ _ => .xorReg (fieldX w) (fieldY w)
  | .addReg _ _ => .addReg (fieldX w) (fieldY w)
  | .subReg _ _ => .subReg (fieldX w) (fieldY w)
  | .shr _ _ => .shr (fieldX w) (fieldY w)
  | .subn _ _ => .subn (fieldX w) (fieldY w)
  | .shl _ _ => .shl (fieldX w) (fieldY w)
  | .sneReg _ _ => .sneReg (fieldX w) (fieldY w)
  | .ldI _ => .ldI (fieldNNN w)
  | .jpV0 _ => .jpV0 (fieldNNN w)
  | .rnd _ _ => .rnd (fieldX w) (fieldKK w)
  | .drw _ _ _ => .drw (fieldX w) (fieldY w) (fieldN w)
  | .skp _ => .skp (fieldX w)
  | .sknp _ => .sknp (fieldX w)
  | .ldVxDt _ => .ldVxDt (fieldX w)
  | .ldVxK _ => .ldVxK (fieldX w)
  | .ldDtVx _ => .ldDtVx (fieldX w)
  | .ldStVx _ => .ldStVx (fieldX w)
  | .addI _ => .addI (fieldX w)
  | .ldF _ => .ldF (fieldX w)
  | .ldB _ => .ldB (fieldX w)
  | .ldMemVx _ => .ldMemVx (fieldX w)
  | .ldVxMem _ => .ldVxMem (fieldX w)

/-- An instruction has the fields of its own word: those packed into it. -/
theorem Instr.withFields_encode (i : Instr) : i.withFields (encode i) = i := by
  cases i <;> simp [Instr.withFields, encode]

/-- The row does not depend on the fields. -/
theorem Instr.tableRow_withFields (w : Word) (i : Instr) : (i.withFields w).tableRow = i.tableRow := by
  cases i <;> rfl

/-- An instruction's word selects its row of R74. -/
theorem encode_and_tableRow (i : Instr) : encode i &&& i.tableRow.2 = i.tableRow.1 := by
  open Laws.TableRow in
  cases i
  exacts [cls, ret, sys _, jp _, call _, seImm _ _, sneImm _ _, seReg _ _, ldImm _ _, addImm _ _, ldReg _ _,
    orReg _ _, andReg _ _, xorReg _ _, addReg _ _, subReg _ _, shr _ _, subn _ _, shl _ _, sneReg _ _, ldI _,
    jpV0 _, rnd _ _, drw _ _ _, skp _, sknp _, ldVxDt _, ldVxK _, ldDtVx _, ldStVx _, addI _, ldF _, ldB _,
    ldMemVx _, ldVxMem _]

/-- The side condition of R74 on `0nnn`: where `j` is of that row, `w` is neither `FIXED` word (R78). -/
def NotFixedIfSys (w : Word) (j : Instr) : Prop :=
  (∃ nnn, j = .sys nnn) → w ≠ 0x00E0#16 ∧ w ≠ 0x00EE#16

/-- The word of a well-formed `SYS nnn` is neither `FIXED` word. -/
theorem notFixedIfSys_encode (h : i.wellFormed = true) : NotFixedIfSys (encode i) i := by
  rintro ⟨nnn, rfl⟩
  simpa [Machine.illegalWord_iff, encode] using Machine.illegalWord_sys h

/-- Only the words of `0nnn` decode into its row: each `FIXED` word decodes to its own instruction. -/
theorem notFixedIfSys_of_decodeWord (h : decodeWord w = .ok i) (hrow : i.tableRow = j.tableRow) :
    NotFixedIfSys w j := by
  rintro ⟨nnn, rfl⟩
  constructor <;> rintro rfl
  · cases (show decodeWord 0x00E0#16 = .ok .cls from rfl).symm.trans h
    exact absurd hrow (by simp [Instr.tableRow])
  · cases (show decodeWord 0x00EE#16 = .ok .ret from rfl).symm.trans h
    exact absurd hrow (by simp [Instr.tableRow])

/-! The rows with a sub-opcode: the mask fixes what the family's decoder reads besides the registers. -/

theorem decodeWord_of_row5 (h : w &&& 0xF00F#16 = packXYN 0x5#4 0#4 0#4 0#4) :
    decodeWord w = .ok (.seReg (fieldX w) (fieldY w)) := by
  obtain ⟨f, hn⟩ := mask_F00F_iff.1 h
  rw [decodeWord_family5 f, if_pos hn]

theorem decodeWord_of_row8 {n : Nibble} (h : w &&& 0xF00F#16 = packXYN 0x8#4 0#4 0#4 n) :
    decodeWord w = decodeAlu (fieldX w) (fieldY w) n := by
  obtain ⟨f, hn⟩ := mask_F00F_iff.1 h
  rw [decodeWord_family8 f, hn]

theorem decodeWord_of_row9 (h : w &&& 0xF00F#16 = packXYN 0x9#4 0#4 0#4 0#4) :
    decodeWord w = .ok (.sneReg (fieldX w) (fieldY w)) := by
  obtain ⟨f, hn⟩ := mask_F00F_iff.1 h
  rw [decodeWord_family9 f, if_pos hn]

theorem decodeWord_of_rowE {k : Byte} (h : w &&& 0xF0FF#16 = packXKK 0xE#4 0#4 k) :
    decodeWord w = decodeKey (fieldX w) k := by
  obtain ⟨f, hk⟩ := mask_F0FF_iff.1 h
  rw [decodeWord_familyE f, hk]

theorem decodeWord_of_rowF {k : Byte} (h : w &&& 0xF0FF#16 = packXKK 0xF#4 0#4 k) :
    decodeWord w = decodeMisc (fieldX w) k := by
  obtain ⟨f, hk⟩ := mask_F0FF_iff.1 h
  rw [decodeWord_familyF f, hk]

/-- A word selected by the row of `j` decodes to the row's instruction with the word's fields (R74, R78). -/
theorem decodeWord_of_tableRow (h : w &&& j.tableRow.2 = j.tableRow.1) (hsys : NotFixedIfSys w j) :
    decodeWord w = .ok (j.withFields w) := by
  cases j with
  | cls => rw [show w = 0x00E0#16 from BitVec.and_allOnes.symm.trans h]; rfl
  | ret => rw [show w = 0x00EE#16 from BitVec.and_allOnes.symm.trans h]; rfl
  | sys nnn =>
    obtain ⟨hcls, hret⟩ := hsys ⟨nnn, rfl⟩
    rw [decodeWord_family0 (mask_F000_iff.1 h), decodeFixed, if_neg hcls, if_neg hret]; rfl
  | jp => exact decodeWord_family1 (mask_F000_iff.1 h)
  | call => exact decodeWord_family2 (mask_F000_iff.1 h)
  | seImm => exact decodeWord_family3 (mask_F000_iff.1 h)
  | sneImm => exact decodeWord_family4 (mask_F000_iff.1 h)
  | seReg => exact decodeWord_of_row5 h
  | ldImm => exact decodeWord_family6 (mask_F000_iff.1 h)
  | addImm => exact decodeWord_family7 (mask_F000_iff.1 h)
  | ldReg => exact decodeWord_of_row8 (n := 0x0#4) h
  | orReg => exact decodeWord_of_row8 (n := 0x1#4) h
  | andReg => exact decodeWord_of_row8 (n := 0x2#4) h
  | xorReg => exact decodeWord_of_row8 (n := 0x3#4) h
  | addReg => exact decodeWord_of_row8 (n := 0x4#4) h
  | subReg => exact decodeWord_of_row8 (n := 0x5#4) h
  | shr => exact decodeWord_of_row8 (n := 0x6#4) h
  | subn => exact decodeWord_of_row8 (n := 0x7#4) h
  | shl => exact decodeWord_of_row8 (n := 0xE#4) h
  | sneReg => exact decodeWord_of_row9 h
  | ldI => exact decodeWord_familyA (mask_F000_iff.1 h)
  | jpV0 => exact decodeWord_familyB (mask_F000_iff.1 h)
  | rnd => exact decodeWord_familyC (mask_F000_iff.1 h)
  | drw => exact decodeWord_familyD (mask_F000_iff.1 h)
  | skp => exact decodeWord_of_rowE (k := 0x9E#8) h
  | sknp => exact decodeWord_of_rowE (k := 0xA1#8) h
  | ldVxDt => exact decodeWord_of_rowF (k := 0x07#8) h
  | ldVxK => exact decodeWord_of_rowF (k := 0x0A#8) h
  | ldDtVx => exact decodeWord_of_rowF (k := 0x15#8) h
  | ldStVx => exact decodeWord_of_rowF (k := 0x18#8) h
  | addI => exact decodeWord_of_rowF (k := 0x1E#8) h
  | ldF => exact decodeWord_of_rowF (k := 0x29#8) h
  | ldB => exact decodeWord_of_rowF (k := 0x33#8) h
  | ldMemVx => exact decodeWord_of_rowF (k := 0x55#8) h
  | ldVxMem => exact decodeWord_of_rowF (k := 0x65#8) h

/-- A well-formed instruction is read back from its word. -/
theorem decodeWord_encode (h : i.wellFormed = true) : decodeWord (encode i) = .ok i :=
  calc decodeWord (encode i)
    _ = .ok (i.withFields (encode i)) := decodeWord_of_tableRow (encode_and_tableRow i) (notFixedIfSys_encode h)
    _ = .ok i := by rw [i.withFields_encode]

/-- The decoder on bytes reads the word that the first two bytes hold (R70). -/
theorem decode_bytes_of_ok (h : decodeWord w = .ok i) (rest : List Byte) :
    decode (highByte w :: lowByte w :: rest) = .ok (i, rest) := by
  rw [decode, wordOfBytes_split, h]

/-- Settles O1: an instruction's word selects its row, and the fields read are those packed. -/
theorem decodeOfEncode : Obligations.DecodeOfEncode := by
  unfold Obligations.DecodeOfEncode
  intro i h
  exact ⟨decodeWord_encode h, decode_bytes_of_ok (decodeWord_encode h)⟩

/-- Settles O2, by the decoder's answer in each family. -/
theorem encodeOfDecode : Obligations.EncodeOfDecode := by
  unfold Obligations.EncodeOfDecode
  exact fun _ _ => encode_of_decodeWord

/-- Settles O3: a selected word decodes into the row; a word that decodes is an instruction's own (O2), which
selects that instruction's row. -/
theorem opcodeMapSelectsTheRow : Obligations.OpcodeMapSelectsTheRow := by
  unfold Obligations.OpcodeMapSelectsTheRow
  intro w j
  constructor
  · rintro ⟨hm, hsys⟩
    exact ⟨j.withFields w, decodeWord_of_tableRow hm hsys, j.tableRow_withFields w⟩
  · rintro ⟨i, hd, hrow⟩
    obtain ⟨rfl, -⟩ := encode_of_decodeWord hd
    exact ⟨hrow ▸ encode_and_tableRow i, notFixedIfSys_of_decodeWord hd hrow⟩

end Sys2Proof

namespace Sys2Proof.Machine

/-- A word that is not illegal decodes, and not to `SYS nnn`, whose words are illegal (R75). -/
theorem decodeWord_of_legal {w : Word} (h : illegalWord w = false) :
    ∃ i, decodeWord w = .ok i ∧ ∀ nnn, i ≠ .sys nnn := by
  cases hd : decodeWord w with
  | error e => exact absurd (illegalWord_of_decodeWord_error hd) (by simp [h])
  | ok i =>
    refine ⟨i, rfl, ?_⟩
    rintro nnn rfl
    obtain ⟨rfl, hwf⟩ := encode_of_decodeWord hd
    exact absurd (illegalWord_sys hwf) (by simp [h])

/-- Entering a fault, and the taking-up of the inputs after it, is what `TookFault` says (R198, R199). -/
theorem State.tookFault_enterFault (s : State) (kind : FaultKind) (word pc : Word) :
    TookFault kind word pc s (s.enterFault kind word pc).nextInputs :=
  ⟨⟨rfl, rfl, rfl, rfl, rfl⟩, rfl, fun _ _ => rfl, rfl, rfl, ⟨rfl, rfl⟩, ⟨rfl, rfl⟩, rfl, rfl⟩

/-- A cycle takes the fault that is due, at `PC` (R196 to R198). -/
theorem step_of_faultDue {s : State} {f : FaultKind × Word} (running : s.halt = false)
    (due : s.faultDue = some f) : ∃ t, step s = .next t ∧ TookFault f.1 f.2 s.pc s t := by
  obtain ⟨t, hs, c⟩ := step_cycle s
  refine ⟨t, hs, ?_⟩
  cases c with
  | halted h => exact absurd (running.symm.trans h) Bool.false_ne_true
  | faulted _ due' =>
    cases due.symm.trans due'
    exact s.tookFault_enterFault _ _ _
  | completed _ noFault => cases due.symm.trans noFault

/-- Settles O4: what does not decode is illegal, and an illegal word's fault is the one that is due. -/
theorem illegalWordsFault : Obligations.IllegalWordsFault := by
  unfold Obligations.IllegalWordsFault
  refine ⟨fun _ => decodeWord_of_legal, fun s running inside illegal => ?_⟩
  have due : s.faultDue = some (.unsupportedInstruction, s.wordAtPc) := by
    rw [State.faultDue_of_pc_le inside, faultOfWord, if_pos illegal]; rfl
  exact step_of_faultDue running due

end Sys2Proof.Machine
end

section
/-! One cycle by its three beginnings (spec/40_engine_cycle.md R90 to R93): halted, fetching outside memory,
and running the decoded instruction; and the result of a cycle (R99). -/

namespace Sys2Proof.Machine

variable {s t : State} {i : Instr}

/-- The gate of R91. -/
theorem step_of_halt (h : s.halt = true) : step s = .next s := if_pos h

/-- The result of a cycle that left a fault latched is its record (R91, R196). -/
theorem State.result_of_halt (h : s.halt = true) : s.result = .fault s.fkind s.fword s.fpc := if_pos h

/-- The result is `Ok` exactly when no fault is latched (R99). -/
theorem State.result_eq_ok_iff : s.result = .ok ↔ s.halt = false := by
  unfold State.result
  split
  · next halted => simp [halted]
  · next running => simpa using running

/-- Fetch and decode answer the instruction that the word at `PC` decodes to (R92, R93). -/
theorem State.fetchInstr_of_decodeWord (inside : s.pc.toNat ≤ 0xFFE) (hd : decodeWord s.wordAtPc = .ok i) :
    s.fetchInstr = .ok i := by
  simp only [State.fetchInstr, State.fetchWord_eq inside, hd]

/-- A cycle that fetches an instruction runs it and ends (R90). -/
theorem step_of_fetchInstr (running : s.halt = false) (hf : s.fetchInstr = .ok i) (he : exec i s = .next t) :
    step s = .next t.finishCycle := by
  simp [step, running, hf, he]

/-- Settles O7: the gate comes before everything else. -/
theorem haltedCycleChangesNothing : Obligations.HaltedCycleChangesNothing := by
  unfold Obligations.HaltedCycleChangesNothing
  exact fun _ halted => ⟨step_of_halt halted, State.result_of_halt halted⟩

/-- Settles O8: the fetch fault is due before any word is looked at (R197). -/
theorem fetchOutOfRangeFaults : Obligations.FetchOutOfRangeFaults := by
  unfold Obligations.FetchOutOfRangeFaults
  intro s running outside
  have due : s.faultDue = some (.memoryOutOfRange, 0x0000#16) := if_pos outside
  exact step_of_faultDue running due

/-- Settles O6: the word at `PC` is the one fetched. -/
theorem stepRunsTheDecodedInstruction : Obligations.StepRunsTheDecodedInstruction := by
  unfold Obligations.StepRunsTheDecodedInstruction
  intro s i running inside hd t he
  exact step_of_fetchInstr running (State.fetchInstr_of_decodeWord inside hd) he

/-- Settles O10: each of the three ways a cycle can go ends in a next state, and `HALT` alone tells the
result. -/
theorem everyCycleAnswersANextState : Obligations.EveryCycleAnswersANextState := by
  unfold Obligations.EveryCycleAnswersANextState
  intro s
  obtain ⟨t, hs, -⟩ := step_cycle s
  exact ⟨t, hs, State.result_eq_ok_iff⟩

end Sys2Proof.Machine
end

section
/-! `PC` after an instruction that does not fault (spec/40_engine_cycle.md R94). Rows that cannot fault read it
off their meaning; the others first use that their fault condition fails. -/

namespace Sys2Proof.Machine

variable {s t : State}

/-- `CheckRange` fails on a run of bytes that ends above 0xFFF (R55). -/
theorem checkRange_eq_false {a n : Nat} : checkRange a n = false ↔ n > 0 ∧ a + n - 1 > 0xFFF := by
  rw [← Bool.not_eq_true, checkRange_iff]
  omega

/-- A read answers nothing exactly where the range check fails (R55). -/
theorem State.memRead_none {a n : Nat} : s.memRead a n = none ↔ n > 0 ∧ a + n - 1 > 0xFFF := by
  simp [State.memRead, checkRange_eq_false]

/-- A write is left out exactly where the range check fails (R55). -/
theorem State.memWrite_none {a : Nat} {bs : List Byte} :
    s.memWrite a bs = none ↔ bs.length > 0 ∧ a + bs.length - 1 > 0xFFF := by
  simp [State.memWrite, checkRange_eq_false]

/-- A write to memory leaves `PC` alone. -/
theorem State.memWrite_pc {a : Nat} {bs : List Byte} (h : s.memWrite a bs = some t) : t.pc = s.pc := by
  rw [State.memWrite_eq, Option.ite_none_right_eq_some] at h
  obtain ⟨-, h⟩ := h
  cases h; rfl

/-- `PC` after a skip instruction whose test decides the condition `p` (R94). -/
theorem State.skipIf_pc {c : Bool} {p : Prop} [Decidable p] (h : c = true ↔ p) :
    (s.skipIf c).pc = if p then s.pc + 4#16 else s.pc + 2#16 := by
  rw [State.skipIf_eq]
  exact if_congr h rfl rfl

/-- A 12-bit address as a 16-bit word, by its number (R73). -/
theorem zextAddr_eq_ofNat (nnn : Addr12) : zextAddr nnn = BitVec.ofNat 16 nnn.toNat :=
  (BitVec.ofNat_toNat 16 nnn).symm

/-- The target of `Bnnn` as one sum of numbers (R114). -/
theorem jpV0_target (nnn : Addr12) (b : Byte) :
    zextAddr nnn + zextByte b = BitVec.ofNat 16 (nnn.toNat + b.toNat) := by
  rw [BitVec.ofNat_add, BitVec.ofNat_toNat, BitVec.ofNat_toNat]; rfl

/-- The slot a pop takes, by its index in the list of slots (R24). -/
theorem State.slot_eq_getD (k : Fin 12) : s.slot k = s.stack.toList.getD k.val 0#16 := by
  simp [State.slot]

/-- A byte names no key exactly when it is above 15 (R181). -/
theorem keyIndex_none {a : Byte} : keyIndex a = none ↔ a.toNat > 15 := by
  simp [keyIndex_eq]

/-- The key a byte names, by its index in the list of keys (R27, R181). -/
theorem State.key_of_keyIndex {a : Byte} {k : Nibble} (h : keyIndex a = some k) :
    s.key k = s.keys.toList.getD a.toNat false := by
  obtain ⟨ha, rfl⟩ : a.toNat ≤ 15 ∧ a.setWidth 4 = k := by simpa [keyIndex_eq] using h
  have hk : (a.setWidth 4).toNat = a.toNat := by rw [BitVec.toNat_setWidth]; omega
  simp [State.key, hk, show a.toNat < 16 by omega]

/-- `Fx0A` finds a key exactly when one is pressed (R177). -/
theorem State.lowestKey_ne_none : s.lowestKey ≠ none ↔ ∃ k, s.key k = true := by
  simp [State.lowestKey_none]

/-- `00EE` jumps to the slot popped (R110). -/
theorem exec_ret_pc (noFault : s.instrFault .ret = none) (h : exec .ret s = .next t) :
    t.pc = pcAfter .ret s := by
  cases hp : s.pop with
  | none => simp [State.instrFault, State.pop_none.1 hp] at noFault
  | some p =>
    obtain ⟨a, u⟩ := p
    obtain ⟨_, _, rfl, -⟩ := State.pop_some hp
    rw [exec, execRet, hp] at h
    cases h
    exact State.slot_eq_getD _

/-- `2nnn` jumps to `nnn` (R113). -/
theorem exec_call_pc {nnn : Addr12} (noFault : s.instrFault (.call nnn) = none)
    (h : exec (.call nnn) s = .next t) : t.pc = pcAfter (.call nnn) s := by
  cases hp : s.push (s.pc + 2#16) with
  | none => simp [State.instrFault, State.push_none.1 hp] at noFault
  | some u =>
    rw [exec, execCall, hp] at h
    cases h
    exact zextAddr_eq_ofNat nnn

/-- `Dxyn` advances (R166). -/
theorem exec_drw_pc {x y n : Nibble} (noFault : s.instrFault (.drw x y n) = none)
    (h : exec (.drw x y n) s = .next t) : t.pc = s.pc + 2#16 := by
  cases hr : s.memRead s.dataAddr n.toNat with
  | none => simp [State.instrFault, State.memRead_none.1 hr] at noFault
  | some rows =>
    rw [exec, execDrw, hr] at h
    cases h; rfl

/-- `Ex9E` skips where the key is pressed (R175). -/
theorem exec_skp_pc {x : Nibble} (noFault : s.instrFault (.skp x) = none) (h : exec (.skp x) s = .next t) :
    t.pc = pcAfter (.skp x) s := by
  cases hk : keyIndex (s.reg x) with
  | none => simp [State.instrFault, keyIndex_none.1 hk] at noFault
  | some k =>
    rw [exec, execSkp, hk] at h
    cases h
    exact State.skipIf_pc (by rw [State.key_of_keyIndex hk])

/-- `ExA1` skips where the key is not pressed (R176). -/
theorem exec_sknp_pc {x : Nibble} (noFault : s.instrFault (.sknp x) = none) (h : exec (.sknp x) s = .next t) :
    t.pc = pcAfter (.sknp x) s := by
  cases hk : keyIndex (s.reg x) with
  | none => simp [State.instrFault, keyIndex_none.1 hk] at noFault
  | some k =>
    rw [exec, execSknp, hk] at h
    cases h
    exact State.skipIf_pc (by rw [State.key_of_keyIndex hk, Bool.not_eq_true'])

/-- `Fx0A` suspends while no key is pressed, else advances (R177). -/
theorem exec_ldVxK_pc {x : Nibble} (h : exec (.ldVxK x) s = .next t) : t.pc = pcAfter (.ldVxK x) s := by
  cases hk : s.lowestKey with
  | none =>
    rw [exec, execLdVxK, hk] at h
    cases h
    exact (if_neg fun pressed => State.lowestKey_ne_none.2 pressed hk).symm
  | some k =>
    rw [exec, execLdVxK, hk] at h
    cases h
    exact (if_pos (State.lowestKey_ne_none.1 (by simp [hk]))).symm

/-- `Fx33` advances (R153). -/
theorem exec_ldB_pc {x : Nibble} (noFault : s.instrFault (.ldB x) = none) (h : exec (.ldB x) s = .next t) :
    t.pc = s.pc + 2#16 := by
  cases hw : s.memWrite s.dataAddr (decimalDigits (s.reg x)) with
  | none =>
    have outside : s.dataAddr + 2 > 0xFFF := (State.memWrite_none.1 hw).2
    simp [State.instrFault, outside] at noFault
  | some u =>
    rw [exec, execLdB, hw] at h
    cases h
    rw [State.advance_pc, State.memWrite_pc hw]

/-- `Fx55` advances (R154). -/
theorem exec_ldMemVx_pc {x : Nibble} (noFault : s.instrFault (.ldMemVx x) = none)
    (h : exec (.ldMemVx x) s = .next t) : t.pc = s.pc + 2#16 := by
  cases hw : s.memWrite s.dataAddr (s.regBlock x) with
  | none =>
    obtain ⟨-, outside⟩ := State.memWrite_none.1 hw
    rw [State.regBlock_length] at outside
    have outside : s.dataAddr + x.toNat > 0xFFF := outside
    simp [State.instrFault, outside] at noFault
  | some u =>
    rw [exec, execLdMemVx, hw] at h
    cases h
    rw [State.advance_pc, State.setI_pc, State.memWrite_pc hw]

/-- `Fx65` advances (R155). -/
theorem exec_ldVxMem_pc {x : Nibble} (noFault : s.instrFault (.ldVxMem x) = none)
    (h : exec (.ldVxMem x) s = .next t) : t.pc = s.pc + 2#16 := by
  cases hr : s.memRead s.dataAddr (x.toNat + 1) with
  | none =>
    have outside : s.dataAddr + x.toNat > 0xFFF := (State.memRead_none.1 hr).2
    simp [State.instrFault, outside] at noFault
  | some bytes =>
    rw [exec, execLdVxMem, hr] at h
    cases h
    obtain ⟨v, hv⟩ := s.setRegsFrom_only_v 0 bytes
    rw [State.advance_pc, State.setI_pc, hv]

/-- An instruction that does not fault leaves in `PC` what the outcome table of R94 says. -/
theorem exec_pc_of_noFault {i : Instr} (noFault : s.instrFault i = none) (h : exec i s = .next t) :
    t.pc = pcAfter i s := by
  cases i
  case ret => exact exec_ret_pc noFault h
  case sys => cases noFault
  case call => exact exec_call_pc noFault h
  case drw => exact exec_drw_pc noFault h
  case skp => exact exec_skp_pc noFault h
  case sknp => exact exec_sknp_pc noFault h
  case ldVxK => exact exec_ldVxK_pc h
  case ldB => exact exec_ldB_pc noFault h
  case ldMemVx => exact exec_ldMemVx_pc noFault h
  case ldVxMem => exact exec_ldVxMem_pc noFault h
  all_goals cases h
  case jp nnn => exact zextAddr_eq_ofNat nnn
  case jpV0 nnn => exact jpV0_target nnn (s.reg 0#4)
  case seImm => exact State.skipIf_pc beq_iff_eq
  case sneImm => exact State.skipIf_pc bne_iff_ne
  case seReg => exact State.skipIf_pc beq_iff_eq
  case sneReg => exact State.skipIf_pc bne_iff_ne
  all_goals rfl

/-- Settles O13: a fault keeps `PC`, and every other outcome is the table's. -/
theorem outcomeDecidesPc : Obligations.OutcomeDecidesPc := by
  unfold Obligations.OutcomeDecidesPc
  intro i s t hwf h
  rw [faultOfWord_encode s hwf]
  obtain ⟨k, hk, rfl⟩ | ⟨noFault, -⟩ := exec_cases h
  · rw [hk]; rfl
  · rw [noFault]
    exact exec_pc_of_noFault noFault h

end Sys2Proof.Machine
end

section
/-! The control-flow instructions (spec/41_control_flow.md R110 to R118): the stack moves of R24 first, then
what every jump and skip leaves unchanged, then the instructions one by one. -/

namespace Sys2Proof.Machine

variable {s t : State} {w : Word}

/-- Slots are read from `STACK` alone. -/
theorem State.slot_congr (h : t.stack = s.stack) (k : Fin 12) : t.slot k = s.slot k := by
  simp [State.slot, h]

/-- A pop from a stack of `k + 1` slots takes slot `k` (R24). -/
theorem State.pop_of_sp {k : Fin 12} (hk : s.sp.val = k.val + 1) :
    s.pop = some (s.slot k, { s with sp := k.castSucc }) := by
  have top : s.sp = k.succ := Fin.ext hk
  rw [State.pop, top]; rfl

/-- A push succeeds where a slot is free (R24). -/
theorem State.push_of_free (free : s.sp.val < 12) (w : Word) : ∃ t, s.push w = some t :=
  Option.ne_none_iff_exists'.1 fun hp => Nat.ne_of_lt free (State.push_none.1 hp)

/-- A push adds one to the depth (R24). -/
theorem State.push_sp (h : s.push w = some t) : t.sp.val = s.sp.val + 1 := by
  obtain ⟨_, rfl⟩ := State.push_some h
  rfl

/-- A push writes the first free slot and no other (R24). -/
theorem State.push_slot (h : s.push w = some t) (k : Fin 12) :
    t.slot k = if k.val = s.sp.val then w else s.slot k := by
  obtain ⟨_, rfl⟩ := State.push_some h
  simp [State.slot, Vector.getElem_set, eq_comm]

/-- Writing `PC`, `SP` and `STACK` leaves everything else unchanged. -/
theorem State.keepsAllButStack (s : State) (pc : Word) (sp : Fin 13) (stack : Vector Word 12) :
    let t := { s with pc := pc, sp := sp, stack := stack }
    KeepsRegsBut [] s t ∧ KeepsMem s t ∧ KeepsIndex s t ∧ KeepsTimers s t ∧ KeepsScreen s t ∧
      KeepsLatch s t ∧ KeepsInputs s t :=
  ⟨fun _ _ => rfl, fun _ => rfl, rfl, ⟨rfl, rfl⟩, rfl, ⟨rfl, rfl, rfl, rfl, rfl⟩, rfl, rfl, rfl, rfl⟩

/-- A jump changes `PC` only (R94). -/
theorem State.onlyRegs_jump (s : State) (a : Word) : OnlyRegs [] s (s.jump a) :=
  ⟨fun _ _ => rfl, fun _ => rfl, rfl, ⟨rfl, rfl⟩, ⟨rfl, rfl⟩, rfl, ⟨rfl, rfl, rfl, rfl, rfl⟩, rfl, rfl, rfl, rfl⟩

/-- A skip changes `PC` only, whether it is taken or not (R94). -/
theorem State.onlyRegs_skipIf (s : State) (c : Bool) : OnlyRegs [] s (s.skipIf c) :=
  s.skipIf_eq c ▸ s.onlyRegs_jump _

/-- A skip on equality (R115, R117). -/
theorem State.skipIf_beq (s : State) (a b : Byte) :
    (s.skipIf (a == b)).pc = (if a = b then s.pc + 4#16 else s.pc + 2#16) ∧
      OnlyRegs [] s (s.skipIf (a == b)) :=
  ⟨State.skipIf_pc beq_iff_eq, s.onlyRegs_skipIf _⟩

/-- A skip on inequality (R116, R118). -/
theorem State.skipIf_bne (s : State) (a b : Byte) :
    (s.skipIf (a != b)).pc = (if a = b then s.pc + 2#16 else s.pc + 4#16) ∧
      OnlyRegs [] s (s.skipIf (a != b)) :=
  ⟨(State.skipIf_pc bne_iff_ne).trans (ite_not ..), s.onlyRegs_skipIf _⟩

/-- An instruction that raises a fault takes it with its own word and address (R196, R198). -/
theorem State.tookFault_raise (s : State) (kind : FaultKind) (i : Instr) :
    TookFault kind (encode i) s.pc s (s.raise kind i) :=
  ⟨⟨rfl, rfl, rfl, rfl, rfl⟩, rfl, fun _ _ => rfl, rfl, rfl, ⟨rfl, rfl⟩, ⟨rfl, rfl⟩, rfl, rfl⟩

/-- A 12-bit address keeps its number as a word (R73). -/
theorem zextAddr_toNat (nnn : Addr12) : (zextAddr nnn).toNat = nnn.toNat :=
  BitVec.toNat_setWidth_of_le (by decide)

/-- The target of `Bnnn` is the sum of the numbers: at most 0x10FE, it does not wrap (R114). -/
theorem jpV0_target_toNat (nnn : Addr12) (b : Byte) :
    (zextAddr nnn + zextByte b).toNat = nnn.toNat + b.toNat := by
  rw [jpV0_target, BitVec.toNat_ofNat, Nat.mod_eq_of_lt (by omega)]

/-- `00EE` on a stack of `k + 1` slots jumps to slot `k` (R110). -/
theorem exec_ret_of_sp {k : Fin 12} (hk : s.sp.val = k.val + 1) :
    exec .ret s = .next (({ s with sp := k.castSucc } : State).jump (s.slot k)) := by
  rw [exec, execRet, State.pop_of_sp hk]

/-- `00EE` on an empty stack (R110). -/
theorem exec_ret_of_empty (empty : s.sp.val = 0) : exec .ret s = .next (s.raise .stackUnderflow .ret) := by
  rw [exec, execRet, State.pop_none.2 empty]

/-- `2nnn` jumps from the state with `PC + 2` pushed (R113). -/
theorem exec_call_of_push (hp : s.push (s.pc + 2#16) = some t) (nnn : Addr12) :
    exec (.call nnn) s = .next (t.jump (zextAddr nnn)) := by
  rw [exec, execCall, hp]

/-- `2nnn` on a full stack (R113). -/
theorem exec_call_of_full (full : s.sp.val = 12) (nnn : Addr12) :
    exec (.call nnn) s = .next (s.raise .stackOverflow (.call nnn)) := by
  rw [exec, execCall, State.push_none.2 full]

/-- A `0nnn` word that is neither `FIXED` word is the word of a well-formed `SYS nnn` (R74, R111). -/
theorem wellFormed_sys {nnn : Addr12} (ncls : 0x0#4 ++ nnn ≠ 0x00E0#16) (nret : 0x0#4 ++ nnn ≠ 0x00EE#16) :
    (Instr.sys nnn).wellFormed = true := by
  simp only [Instr.wellFormed, Bool.and_eq_true, bne_iff_ne]
  exact ⟨fun e => ncls (by rw [e]; rfl), fun e => nret (by rw [e]; rfl)⟩

/-- Settles O27: the call's push writes slot `s.sp` and adds one to the depth, so a return from any state with
that stack pops exactly that slot. -/
theorem returnAfterCallResumes : Obligations.ReturnAfterCallResumes := by
  unfold Obligations.ReturnAfterCallResumes
  intro nnn s free
  obtain ⟨t, hp⟩ := State.push_of_free free (s.pc + 2#16)
  refine ⟨_, exec_call_of_push hp nnn, fun u hsp hstack => ?_⟩
  let top : Fin 12 := ⟨s.sp.val, free⟩
  have depth : u.sp.val = top.val + 1 :=
    calc u.sp.val
      _ = t.sp.val := congrArg Fin.val hsp
      _ = top.val + 1 := State.push_sp hp
  have slot : u.slot top = s.pc + 2#16 :=
    calc u.slot top
      _ = t.slot top := State.slot_congr hstack top
      _ = s.pc + 2#16 := (State.push_slot hp top).trans (if_pos rfl)
  exact ⟨_, exec_ret_of_sp depth, slot, rfl⟩

/-- Settles O23: slot `k` is the one popped, and an empty stack faults. -/
theorem returnPopsIntoPc : Obligations.ReturnPopsIntoPc := by
  unfold Obligations.ReturnPopsIntoPc
  refine ⟨decodeWord_encode (i := .ret) rfl, fun s k hk => ?_, fun s empty => ?_⟩
  · exact ⟨_, exec_ret_of_sp hk, rfl, rfl, rfl, s.keepsAllButStack _ _ _⟩
  · exact ⟨_, exec_ret_of_empty empty, s.tookFault_raise _ _⟩

/-- Settles O24: the fault is raised whatever `nnn` is; the decoder answers well-formed terms only. -/
theorem sysAlwaysFaults : Obligations.SysAlwaysFaults := by
  unfold Obligations.SysAlwaysFaults
  intro nnn s
  refine ⟨fun ncls nret => ?_, _, rfl, s.tookFault_raise _ (.sys nnn)⟩
  exact decodeWord_encode (i := .sys nnn) (wellFormed_sys ncls nret)

/-- Settles O25: the outcome is a jump to `nnn`. -/
theorem jumpSetsPc : Obligations.JumpSetsPc := by
  unfold Obligations.JumpSetsPc
  intro nnn s
  exact ⟨decodeWord_encode (i := .jp nnn) rfl, _, rfl, zextAddr_toNat nnn, s.onlyRegs_jump _⟩

/-- Settles O26, by what a push does and where it fails. -/
theorem callPushesAndJumps : Obligations.CallPushesAndJumps := by
  unfold Obligations.CallPushesAndJumps
  intro nnn s
  refine ⟨decodeWord_encode (i := .call nnn) rfl, fun free => ?_, fun full => ?_⟩
  · obtain ⟨t, hp⟩ := State.push_of_free free (s.pc + 2#16)
    refine ⟨_, exec_call_of_push hp nnn, zextAddr_toNat nnn, State.push_sp (t := t) hp,
      State.push_slot (t := t) hp, ?_⟩
    obtain ⟨_, rfl⟩ := State.push_some hp
    exact s.keepsAllButStack _ _ _
  · exact ⟨_, exec_call_of_full full nnn, s.tookFault_raise _ (.call nnn)⟩

/-- Settles O28: the outcome is a jump to a sum that does not wrap. -/
theorem jumpWithOffset : Obligations.JumpWithOffset := by
  unfold Obligations.JumpWithOffset
  intro nnn s
  exact ⟨decodeWord_encode (i := .jpV0 nnn) rfl, _, rfl, jpV0_target_toNat nnn (s.reg 0#4), s.onlyRegs_jump _⟩

/-- Settles O29: the two outcomes are a skip on equality and one on inequality. -/
theorem skipOnImmediate : Obligations.SkipOnImmediate := by
  unfold Obligations.SkipOnImmediate
  intro x kk s
  constructor
  · exact ⟨decodeWord_encode (i := .seImm x kk) rfl, _, rfl, s.skipIf_beq _ _⟩
  · exact ⟨decodeWord_encode (i := .sneImm x kk) rfl, _, rfl, s.skipIf_bne _ _⟩

/-- Settles O30: as O29, with the second operand read from `V[y]`. -/
theorem skipOnRegisters : Obligations.SkipOnRegisters := by
  unfold Obligations.SkipOnRegisters
  intro x y s
  constructor
  · exact ⟨decodeWord_encode (i := .seReg x y) rfl, _, rfl, s.skipIf_beq _ _⟩
  · exact ⟨decodeWord_encode (i := .sneReg x y) rfl, _, rfl, s.skipIf_bne _ _⟩

end Sys2Proof.Machine
end

section
/-! The register loads, the ALU and the random byte (spec/42_alu.md R130 to R143): the results and the flags
as numbers, what writing a register (and a flag) and advancing does, then the instructions one by one. -/

namespace Sys2Proof.Machine

/-- Subtraction modulo 256 (R137, R139). -/
theorem Byte.toNat_sub (a b : Byte) : (a - b).toNat = (a.toNat + 256 - b.toNat) % 256 := by
  rw [BitVec.toNat_sub]; omega

/-- A shift right by one halves (R138). -/
theorem Byte.toNat_shiftRight_one (a : Byte) : (a >>> 1).toNat = a.toNat / 2 :=
  (BitVec.toNat_ushiftRight a 1).trans (Nat.shiftRight_succ a.toNat 0)

/-- A shift left by one doubles modulo 256 (R140). -/
theorem Byte.toNat_shiftLeft_one (a : Byte) : (a <<< 1).toNat = a.toNat * 2 % 256 := by
  rw [BitVec.toNat_shiftLeft, Nat.shiftLeft_eq]

/-- A flag byte as a number (R21). -/
theorem flagByte_toNat (flag : Bool) : (flagByte flag).toNat = flag.toNat := by
  cases flag
  · rfl
  · rfl

/-- The flag byte of a condition (R21). -/
theorem flagByte_decide (p : Prop) [Decidable p] : flagByte (decide p) = if p then 1#8 else 0#8 := by
  simp only [flagByte, decide_eq_true_eq]

/-- The carry of a sum of bytes is its ninth bit (R136, R143). -/
theorem carry_toNat (a b : Byte) :
    (if a.toNat + b.toNat > 255 then 1#8 else 0#8).toNat = (a.toNat + b.toNat) / 256 := by
  split
  · rw [BitVec.toNat_ofNat]; omega
  · rw [BitVec.toNat_ofNat]; omega

/-- The flag of a shift right (R138). -/
theorem flagByte_lowBit_toNat (a : Byte) : (flagByte (lowBit a)).toNat = a.toNat % 2 :=
  calc (flagByte (lowBit a)).toNat
    _ = (a.toNat.testBit 0).toNat := flagByte_toNat _
    _ = a.toNat % 2 := by rw [Nat.toNat_testBit, Nat.pow_zero, Nat.div_one]

/-- The flag of a shift left (R140). -/
theorem flagByte_highBit_toNat (a : Byte) : (flagByte (highBit a)).toNat = a.toNat / 128 :=
  calc (flagByte (highBit a)).toNat
    _ = (a.toNat.testBit 7).toNat := flagByte_toNat _
    _ = a.toNat / 128 := by rw [Nat.toNat_testBit]; omega

variable (s : State) (x y : Nibble)

/-- Writing `V` and advancing changes nothing but `PC` and the registers that are new in `V`. -/
theorem State.onlyRegs_writeV {rs : List Nibble} {v : Vector Byte 16} (kept : KeepsRegsBut rs s { s with v := v }) :
    OnlyRegs rs s ({ s with v := v } : State).advance :=
  ⟨kept, fun _ => rfl, rfl, ⟨rfl, rfl⟩, ⟨rfl, rfl⟩, rfl, ⟨rfl, rfl, rfl, rfl, rfl⟩, rfl, rfl, rfl, rfl⟩

/-- An instruction with one result register changes only that register and `PC`: no flag (R142). -/
theorem State.onlyRegs_setReg (b : Byte) : OnlyRegs [x] s (s.setReg x b).advance :=
  s.onlyRegs_writeV fun r hr => by
    have hne : r ≠ x := fun e => hr (e ▸ List.mem_singleton_self x)
    exact (s.reg_setReg x r b).trans (if_neg hne)

/-- The result register after the instruction. -/
theorem State.reg_setReg_advance (b : Byte) : (s.setReg x b).advance.reg x = b := by
  rw [State.reg_advance, State.reg_setReg, if_pos rfl]

/-- An instruction with flag and result changes only `V[x]`, `VF` and `PC`. -/
theorem State.onlyRegs_flagThenResult (flag : Bool) (b : Byte) :
    OnlyRegs [x, 0xF#4] s (s.flagThenResult flag x b).advance :=
  s.onlyRegs_writeV fun r hr => by
    obtain ⟨hx, hf⟩ : r ≠ x ∧ r ≠ 0xF#4 := by simpa using hr
    exact (s.reg_flagThenResult flag x b r).trans ((if_neg hx).trans (if_neg hf))

/-- The result is in `V[x]`, with `x = 15` too: it is written last (R97, D2). -/
theorem State.result_flagThenResult (flag : Bool) (b : Byte) :
    (s.flagThenResult flag x b).advance.reg x = b := by
  rw [State.reg_advance, State.reg_flagThenResult, if_pos rfl]

variable {x} in
/-- The flag stays in `VF` unless the result goes there (R97, D2). -/
theorem State.flag_flagThenResult (flag : Bool) (b : Byte) (hx : x ≠ 0xF#4) :
    (s.flagThenResult flag x b).advance.reg 0xF#4 = flagByte flag := by
  rw [State.reg_advance, State.reg_flagThenResult, if_neg hx.symm, if_pos rfl]

/-- `8xy4` for every `x` and `y` (R136, R143). -/
theorem exec_addReg_writes : ∃ t, exec (.addReg x y) s = .next t ∧
    (t.reg x).toNat = ((s.reg x).toNat + (s.reg y).toNat) % 256 ∧
    (x ≠ 0xF#4 → t.reg 0xF#4 = if (s.reg x).toNat + (s.reg y).toNat > 255 then 1#8 else 0#8) ∧
    t.pc = s.pc + 2#16 ∧ OnlyRegs [x, 0xF#4] s t := by
  refine ⟨_, rfl, ?_, fun hx => ?_, rfl, s.onlyRegs_flagThenResult x _ _⟩
  · rw [State.result_flagThenResult, BitVec.toNat_add]
  · rw [State.flag_flagThenResult s _ _ hx, carryOut, flagByte_decide]

/-- A difference with its NOT borrow, whichever operand is subtracted (R137, R139). -/
theorem State.difference_writes (a b : Byte) :
    let t := (s.flagThenResult (noBorrow a b) x (a - b)).advance
    (t.reg x).toNat = (a.toNat + 256 - b.toNat) % 256 ∧
      (x ≠ 0xF#4 → t.reg 0xF#4 = if a.toNat ≥ b.toNat then 1#8 else 0#8) ∧
      t.pc = s.pc + 2#16 ∧ OnlyRegs [x, 0xF#4] s t := by
  refine ⟨?_, fun hx => ?_, rfl, s.onlyRegs_flagThenResult x _ _⟩
  · rw [State.result_flagThenResult, Byte.toNat_sub]
  · rw [State.flag_flagThenResult s _ _ hx, noBorrow, flagByte_decide]

/-- `8xy5` for every `x` and `y` (R137, R143). -/
theorem exec_subReg_writes : ∃ t, exec (.subReg x y) s = .next t ∧
    (t.reg x).toNat = ((s.reg x).toNat + 256 - (s.reg y).toNat) % 256 ∧
    (x ≠ 0xF#4 → t.reg 0xF#4 = if (s.reg x).toNat ≥ (s.reg y).toNat then 1#8 else 0#8) ∧
    t.pc = s.pc + 2#16 ∧ OnlyRegs [x, 0xF#4] s t :=
  ⟨_, rfl, s.difference_writes x _ _⟩

/-- `8xy7` for every `x` and `y` (R139, R143). -/
theorem exec_subn_writes : ∃ t, exec (.subn x y) s = .next t ∧
    (t.reg x).toNat = ((s.reg y).toNat + 256 - (s.reg x).toNat) % 256 ∧
    (x ≠ 0xF#4 → t.reg 0xF#4 = if (s.reg y).toNat ≥ (s.reg x).toNat then 1#8 else 0#8) ∧
    t.pc = s.pc + 2#16 ∧ OnlyRegs [x, 0xF#4] s t :=
  ⟨_, rfl, s.difference_writes x _ _⟩

/-- `8xy6` for every `x` and `y` (R138, R143). -/
theorem exec_shr_writes : ∃ t, exec (.shr x y) s = .next t ∧ (t.reg x).toNat = (s.reg y).toNat / 2 ∧
    (x ≠ 0xF#4 → (t.reg 0xF#4).toNat = (s.reg x).toNat % 2) ∧
    t.pc = s.pc + 2#16 ∧ OnlyRegs [x, 0xF#4] s t := by
  refine ⟨_, rfl, ?_, fun hx => ?_, rfl, s.onlyRegs_flagThenResult x _ _⟩
  · rw [State.result_flagThenResult, Byte.toNat_shiftRight_one]
  · rw [State.flag_flagThenResult s _ _ hx, flagByte_lowBit_toNat]

/-- `8xyE` for every `x` and `y` (R140, R143). -/
theorem exec_shl_writes : ∃ t, exec (.shl x y) s = .next t ∧ (t.reg x).toNat = (s.reg y).toNat * 2 % 256 ∧
    (x ≠ 0xF#4 → (t.reg 0xF#4).toNat = (s.reg x).toNat / 128) ∧
    t.pc = s.pc + 2#16 ∧ OnlyRegs [x, 0xF#4] s t := by
  refine ⟨_, rfl, ?_, fun hx => ?_, rfl, s.onlyRegs_flagThenResult x _ _⟩
  · rw [State.result_flagThenResult, Byte.toNat_shiftLeft_one]
  · rw [State.flag_flagThenResult s _ _ hx, flagByte_highBit_toNat]

variable {s} in
/-- Where the driver presents a byte, it is the cycle's `rnd` (R100). -/
theorem State.rnd_of_presented {b : Byte} (h : s.rndIn = some b) : s.rnd = b := by
  rw [State.rnd, h, Option.getD_some]

/-- Settles O31: each writes one register and advances. -/
theorem loadsSetTheRegister : Obligations.LoadsSetTheRegister := by
  unfold Obligations.LoadsSetTheRegister
  intro x y kk s
  constructor
  · exact ⟨decodeWord_encode (i := .ldImm x kk) rfl, _, rfl, s.reg_setReg_advance x _, rfl, s.onlyRegs_setReg x _⟩
  · exact ⟨decodeWord_encode (i := .ldReg x y) rfl, _, rfl, s.reg_setReg_advance x _, rfl, s.onlyRegs_setReg x _⟩

/-- Settles O32: the sum of bytes is modulo 256, and one register is written. -/
theorem addImmediateWraps : Obligations.AddImmediateWraps := by
  unfold Obligations.AddImmediateWraps
  intro x kk s
  refine ⟨decodeWord_encode (i := .addImm x kk) rfl, _, rfl, ?_, rfl, s.onlyRegs_setReg x _⟩
  rw [State.reg_setReg_advance, BitVec.toNat_add]

/-- Settles O33: the operations on bytes work bit by bit, and one register is written. -/
theorem logicBitByBit : Obligations.LogicBitByBit := by
  unfold Obligations.LogicBitByBit
  intro x y s
  refine ⟨?or, ?and, ?xor⟩
  case or =>
    refine ⟨decodeWord_encode (i := .orReg x y) rfl, _, rfl, fun k => ?_, rfl, s.onlyRegs_setReg x _⟩
    rw [State.reg_setReg_advance, BitVec.getLsbD_or]
  case and =>
    refine ⟨decodeWord_encode (i := .andReg x y) rfl, _, rfl, fun k => ?_, rfl, s.onlyRegs_setReg x _⟩
    rw [State.reg_setReg_advance, BitVec.getLsbD_and]
  case xor =>
    refine ⟨decodeWord_encode (i := .xorReg x y) rfl, _, rfl, fun k => ?_, rfl, s.onlyRegs_setReg x _⟩
    rw [State.reg_setReg_advance, BitVec.getLsbD_xor]

/-- Settles O34: with `x` not 15 the carry stays in `VF`. -/
theorem addSetsCarry : Obligations.AddSetsCarry := by
  unfold Obligations.AddSetsCarry
  intro x y s hx _
  obtain ⟨t, he, result, flag, rest⟩ := exec_addReg_writes s x y
  exact ⟨decodeWord_encode (i := .addReg x y) rfl, t, he, result, flag hx, rest⟩

/-- Settles O35: with `x` not 15 the flag of either subtraction stays in `VF`. -/
theorem subtractsSetNoBorrow : Obligations.SubtractsSetNoBorrow := by
  unfold Obligations.SubtractsSetNoBorrow
  intro x y s hx _
  constructor
  · obtain ⟨t, he, result, flag, rest⟩ := exec_subReg_writes s x y
    exact ⟨decodeWord_encode (i := .subReg x y) rfl, t, he, result, flag hx, rest⟩
  · obtain ⟨t, he, result, flag, rest⟩ := exec_subn_writes s x y
    exact ⟨decodeWord_encode (i := .subn x y) rfl, t, he, result, flag hx, rest⟩

/-- Settles O36: with `x` not 15 the flag, an end bit of the old `V[x]`, stays in `VF`. -/
theorem shiftsTakeValueFromVyFlagFromVx : Obligations.ShiftsTakeValueFromVyFlagFromVx := by
  unfold Obligations.ShiftsTakeValueFromVyFlagFromVx
  intro x y s hx _
  constructor
  · obtain ⟨t, he, result, flag, rest⟩ := exec_shr_writes s x y
    exact ⟨decodeWord_encode (i := .shr x y) rfl, t, he, result, flag hx, rest⟩
  · obtain ⟨t, he, result, flag, rest⟩ := exec_shl_writes s x y
    exact ⟨decodeWord_encode (i := .shl x y) rfl, t, he, result, flag hx, rest⟩

/-- Settles O37: the five laws hold for every `x` and `y`, those with 15 among them. -/
theorem aluWithVfAsOperand : Obligations.AluWithVfAsOperand := by
  unfold Obligations.AluWithVfAsOperand
  intro x y s _
  refine ⟨?add, exec_subReg_writes s x y, exec_subn_writes s x y, exec_shr_writes s x y, exec_shl_writes s x y⟩
  obtain ⟨t, he, result, flag, rest⟩ := exec_addReg_writes s x y
  exact ⟨t, he, result, fun hx => by rw [flag hx, carry_toNat], rest⟩

/-- Settles O38: the byte is the cycle's `rnd`, which is the presented one where there is one. -/
theorem randomByteAndMask : Obligations.RandomByteAndMask := by
  unfold Obligations.RandomByteAndMask
  intro x kk s
  exact ⟨decodeWord_encode (i := .rnd x kk) rfl, _, s.rnd, rfl, s.reg_setReg_advance x _,
    fun _ => State.rnd_of_presented, rfl, s.onlyRegs_setReg x _⟩

end Sys2Proof.Machine
end

section
/-! The address register and memory (spec/43_index_memory.md R150 to R156): the new `I` and the digits as numbers,
what a stored or loaded block leaves where, then the instructions one by one. -/

namespace Sys2Proof.Machine

variable {s t : State} {x : Nibble}

/-- Five times a byte fits into a word (R152). -/
theorem glyphAddr_toNat (a : Byte) : (glyphAddr a).toNat = a.toNat * 5 := by
  rw [glyphAddr, zextByte, BitVec.toNat_mul, BitVec.toNat_setWidth_of_le (by decide)]
  exact Nat.mod_eq_of_lt (show a.toNat * 5 < 65536 by omega)

/-- A byte added to a word wraps at 65536 (R151, D3). -/
theorem add_zextByte_toNat (w : Word) (b : Byte) : (w + zextByte b).toNat = (w.toNat + b.toNat) % 65536 := by
  rw [BitVec.toNat_add, zextByte, BitVec.toNat_setWidth_of_le (by decide)]

/-- The hundreds digit as a number (R153). -/
theorem hundreds_toNat (a : Byte) : (a / 100#8).toNat = a.toNat / 100 := BitVec.toNat_udiv

/-- The tens digit as a number (R153). -/
theorem tens_toNat (a : Byte) : (a / 10#8 % 10#8).toNat = a.toNat / 10 % 10 := by
  rw [BitVec.toNat_umod, BitVec.toNat_udiv]; rfl

/-- The ones digit as a number (R153). -/
theorem ones_toNat (a : Byte) : (a % 10#8).toNat = a.toNat % 10 := BitVec.toNat_umod

/-- Past a block inside memory `I` does not wrap (R154, R155). -/
theorem State.indexAfterBlock_toNat (fits : s.dataAddr + x.toNat ≤ 0xFFF) :
    (s.indexAfterBlock x).toNat = s.dataAddr + x.toNat + 1 := by
  have hx : (zextNibble x).toNat = x.toNat := BitVec.toNat_setWidth_of_le (by decide)
  rw [State.dataAddr] at fits ⊢
  rw [State.indexAfterBlock, BitVec.toNat_add, BitVec.toNat_add, hx, BitVec.toNat_ofNat]
  omega

/-- The byte `k` places into a stored run (R55). -/
theorem Memory.read_writeRange_add (m : Memory) (a : Nat) {bs : List Byte} {k : Nat} (hk : k < bs.length) :
    Memory.read (Memory.writeRange m a bs) (a + k) = bs[k] := by
  have inside : a ≤ a + k ∧ a + k - a < bs.length := by omega
  rw [Memory.read_writeRange, dif_pos inside]
  simp only [Nat.add_sub_cancel_left]

/-- A stored run changes no byte outside it (R58). -/
theorem State.keepsMemOutside_writeRange {a : Nat} {bs : List Byte}
    (h : t.mem = Memory.writeRange s.mem a bs) : KeepsMemOutside a bs.length s t := by
  intro b outside
  rw [State.byteAt, h, Memory.read_writeRange, dif_neg (by omega)]
  rfl

/-- Writing `V`, `I`, `PC` and `MEM` leaves everything else unchanged. -/
theorem State.keepsAllButData (s : State) (v : Vector Byte 16) (i pc : Word) (mem : Memory) :
    let t := { s with v := v, i := i, pc := pc, mem := mem }
    KeepsStack s t ∧ KeepsTimers s t ∧ KeepsScreen s t ∧ KeepsLatch s t ∧ KeepsInputs s t :=
  ⟨⟨rfl, rfl⟩, ⟨rfl, rfl⟩, rfl, ⟨rfl, rfl, rfl, rfl, rfl⟩, rfl, rfl, rfl, rfl⟩

/-- Setting `I` and advancing changes nothing but `I` and `PC`. -/
theorem State.keepsAllButIndex (s : State) (w : Word) :
    let t := (s.setI w).advance
    KeepsRegsBut [] s t ∧ KeepsMem s t ∧ KeepsStack s t ∧ KeepsTimers s t ∧ KeepsScreen s t ∧
      KeepsLatch s t ∧ KeepsInputs s t :=
  ⟨fun _ _ => rfl, fun _ => rfl, s.keepsAllButData s.v w (s.pc + 2#16) s.mem⟩

/-- An instruction whose fault is due raises it and does nothing else (R95, R198). -/
theorem exec_of_instrFault {i : Instr} {k : FaultKind} (h : s.instrFault i = some k) :
    exec i s = .next (s.raise k i) := by
  obtain ⟨k', hk', he⟩ | ⟨noFault, -⟩ := hasOutcome s i
  · cases Option.some.inj (hk'.symm.trans h)
    exact he
  · cases noFault.symm.trans h

/-- An instruction whose fault is due takes it, with its own word and address. -/
theorem exec_takes_instrFault {i : Instr} {k : FaultKind} (h : s.instrFault i = some k) :
    ∃ t, exec i s = .next t ∧ TookFault k (encode i) s.pc s t :=
  ⟨_, exec_of_instrFault h, s.tookFault_raise k i⟩

/-- `Fx33` inside memory (R153). -/
theorem exec_ldB_of_fits (fits : s.dataAddr + 2 ≤ 0xFFF) : exec (.ldB x) s =
    .next (s.setMem (Memory.writeRange s.mem s.dataAddr (decimalDigits (s.reg x)))).advance := by
  rw [exec, execLdB, State.memWrite_eq, if_pos (.inr fits)]

/-- `Fx55` inside memory (R154). -/
theorem exec_ldMemVx_of_fits (fits : s.dataAddr + x.toNat ≤ 0xFFF) : exec (.ldMemVx x) s =
    .next ((s.setMem (Memory.writeRange s.mem s.dataAddr (s.regBlock x))).setI (s.indexAfterBlock x)).advance := by
  rw [exec, execLdMemVx, State.memWrite_eq, State.regBlock_length, if_pos (.inr fits)]

/-- The bytes of a stored register block are the registers (R154). -/
theorem State.byteAt_regBlock {a : Nat} (h : t.mem = Memory.writeRange s.mem a (s.regBlock x)) (k : Nibble)
    (hk : k.toNat ≤ x.toNat) : t.byteAt (a + k.toNat) = s.reg k := by
  have inBlock : k.toNat < (s.regBlock x).length := by rw [State.regBlock_length]; omega
  rw [State.byteAt, h, Memory.read_writeRange_add _ _ inBlock, State.regBlock_getElem, BitVec.ofNat_toNat,
    BitVec.setWidth_eq]

/-- The registers after the `x + 1` bytes at `a` are loaded into them (R155). -/
theorem State.reg_setRegsFrom_readRange (s : State) (x : Nibble) (a : Nat) (k : Nibble) :
    (s.setRegsFrom 0 (Memory.readRange s.mem a (x.toNat + 1))).reg k =
      if k.toNat ≤ x.toNat then s.byteAt (a + k.toNat) else s.reg k := by
  have len := Memory.readRange_length s.mem a (x.toNat + 1)
  split
  · next hk =>
    have := x.isLt
    rw [State.reg_setRegsFrom s 0 _ (by omega), dif_pos (by omega), Memory.readRange_getElem]
    rfl
  · next hk => exact State.reg_setRegsFrom_above len hk

/-- `Fx65` inside memory (R155): it writes `V`, `I` and `PC`, and of `V` the registers up to `V[x]`. -/
theorem exec_ldVxMem_of_fits (fits : s.dataAddr + x.toNat ≤ 0xFFF) : ∃ v,
    exec (.ldVxMem x) s = .next { s with v := v, i := s.indexAfterBlock x, pc := s.pc + 2#16 } ∧
      ∀ k : Nibble, State.reg { s with v := v } k =
        if k.toNat ≤ x.toNat then s.byteAt (s.dataAddr + k.toNat) else s.reg k := by
  have hr := (s.memRead_eq s.dataAddr (x.toNat + 1)).trans (if_pos (.inr fits))
  have regs := s.reg_setRegsFrom_readRange x s.dataAddr
  obtain ⟨v, hv⟩ := s.setRegsFrom_only_v 0 (Memory.readRange s.mem s.dataAddr (x.toNat + 1))
  rw [hv] at regs
  refine ⟨v, ?_, regs⟩
  simp only [exec, execLdVxMem, hr, hv]
  rfl

/-- Settles O44: the load reads, register by register, the bytes the store left at the same addresses. -/
theorem loadAfterStoreRestores : Obligations.LoadAfterStoreRestores := by
  unfold Obligations.LoadAfterStoreRestores
  intro x s fits
  refine ⟨_, exec_ldMemVx_of_fits fits, fun u hmem hi => ?_⟩
  have sameAddr : u.dataAddr = s.dataAddr := congrArg BitVec.toNat hi
  obtain ⟨v, he, regs⟩ := exec_ldVxMem_of_fits (sameAddr ▸ fits : u.dataAddr + x.toNat ≤ 0xFFF)
  refine ⟨_, he, fun k hk => ?_⟩
  calc State.reg { u with v := v } k
    _ = u.byteAt (u.dataAddr + k.toNat) := (regs k).trans (if_pos hk)
    _ = u.byteAt (s.dataAddr + k.toNat) := by rw [sameAddr]
    _ = s.reg k := State.byteAt_regBlock hmem k hk

/-- Settles O39: neither `nnn` nor five times a byte exceeds a word. -/
theorem loadIndexAndGlyph : Obligations.LoadIndexAndGlyph := by
  unfold Obligations.LoadIndexAndGlyph
  intro nnn x s
  constructor
  · exact ⟨decodeWord_encode (i := .ldI nnn) rfl, _, rfl, zextAddr_toNat nnn, rfl, s.keepsAllButIndex _⟩
  · exact ⟨decodeWord_encode (i := .ldF x) rfl, _, rfl, glyphAddr_toNat (s.reg x), rfl, s.keepsAllButIndex _⟩

/-- Settles O40: the sum is one of words, and only `I` and `PC` are written. -/
theorem addToIndexWraps : Obligations.AddToIndexWraps := by
  unfold Obligations.AddToIndexWraps
  intro x s
  exact ⟨decodeWord_encode (i := .addI x) rfl, _, rfl, add_zextByte_toNat s.i (s.reg x), rfl, s.keepsAllButIndex _⟩

/-- Settles O41: inside memory the three digits are the stored run, else the fault is due. -/
theorem bcdStoresThreeDigits : Obligations.BcdStoresThreeDigits := by
  unfold Obligations.BcdStoresThreeDigits
  intro x s
  refine ⟨decodeWord_encode (i := .ldB x) rfl, fun fits => ?_, fun outside => ?_⟩
  · have digit {k : Nat} (hk : k < 3) := congrArg BitVec.toNat
      (Memory.read_writeRange_add s.mem s.dataAddr (bs := decimalDigits (s.reg x)) hk)
    exact ⟨_, exec_ldB_of_fits fits, (digit (k := 0) (by decide)).trans (hundreds_toNat _),
      (digit (k := 1) (by decide)).trans (tens_toNat _), (digit (k := 2) (by decide)).trans (ones_toNat _),
      State.keepsMemOutside_writeRange (bs := decimalDigits (s.reg x)) rfl, rfl, fun _ _ => rfl, rfl,
      s.keepsAllButData _ _ _ _⟩
  · exact exec_takes_instrFault (i := .ldB x) (if_pos outside)

/-- Settles O42: inside memory the register block is the stored run, else the fault is due. -/
theorem storeRegistersAtIndex : Obligations.StoreRegistersAtIndex := by
  unfold Obligations.StoreRegistersAtIndex
  intro x s
  refine ⟨decodeWord_encode (i := .ldMemVx x) rfl, fun fits => ?_, fun outside => ?_⟩
  · refine ⟨_, exec_ldMemVx_of_fits fits, State.byteAt_regBlock rfl, ?_, State.indexAfterBlock_toNat fits, rfl,
      fun _ _ => rfl, s.keepsAllButData _ _ _ _⟩
    rw [← s.regBlock_length x]
    exact State.keepsMemOutside_writeRange rfl
  · exact exec_takes_instrFault (i := .ldMemVx x) (if_pos outside)

/-- Settles O43: inside memory the load writes the registers up to `V[x]`, else the fault is due. -/
theorem loadRegistersFromIndex : Obligations.LoadRegistersFromIndex := by
  unfold Obligations.LoadRegistersFromIndex
  intro x s
  refine ⟨decodeWord_encode (i := .ldVxMem x) rfl, fun fits => ?_, fun outside => ?_⟩
  · obtain ⟨v, he, regs⟩ := exec_ldVxMem_of_fits fits
    exact ⟨_, he, regs, State.indexAfterBlock_toNat fits, rfl, fun _ => rfl, s.keepsAllButData _ _ _ _⟩
  · exact exec_takes_instrFault (i := .ldVxMem x) (if_pos outside)

end Sys2Proof.Machine
end

section
/-! The frame buffer (spec/44_display.md R165, R166): the blit as a whole, then `Dxyn` and `00E0` with what they
leave unchanged. -/

namespace Sys2Proof.Machine

variable {s : State} {x y n : Nibble}

/-- A sprite whose corner lies right of the grid or below it has no bit inside it (R166: no wrap). -/
theorem spriteBitAt_offScreen {px py : Nat} (off : px ≥ 64 ∨ py ≥ 32) (rows : List Byte) (row col : Nat) :
    spriteBitAt px py rows row col = false := by
  have outside : ¬(row < 32 ∧ col < 64 ∧ px ≤ col ∧ col < px + 8 ∧ py ≤ row) := by omega
  rw [spriteBitAt, decide_eq_false outside, Bool.false_and]

/-- A blit that starts outside the grid draws nothing (R166). -/
theorem drawSprite_offScreen {px py : Nat} (off : px ≥ 64 ∨ py ≥ 32) (rows : List Byte) (fb : FrameBuffer) :
    (drawSprite px py rows fb).1 = fb :=
  FrameBuffer.ext_cell _ _ fun row col _ _ => by
    rw [drawSprite_cell, spriteBitAt_offScreen off, Bool.xor_false]

/-- A blit undoes itself (R166): each cell is XORed with the same bit twice. -/
theorem drawSprite_twice (px py : Nat) (rows : List Byte) (fb : FrameBuffer) :
    (drawSprite px py rows (drawSprite px py rows fb).1).1 = fb :=
  FrameBuffer.ext_cell _ _ fun row col _ _ => by
    rw [drawSprite_cell, drawSprite_cell, Bool.xor_assoc, Bool.xor_self, Bool.xor_false]

/-- The sprite of `n` rows at `I` (R166). -/
def State.spriteRows (s : State) (n : Nibble) : List Byte :=
  (List.range n.toNat).map fun k => s.byteAt (s.dataAddr + k)

/-- The blit of the sprite of `n` rows at column `V[x]`, row `V[y]` (R166): the screen and `hit`. -/
def State.drawn (s : State) (x y n : Nibble) : FrameBuffer × Bool :=
  drawSprite (s.reg x).toNat (s.reg y).toNat (s.spriteRows n) s.fb

/-- The state in which `Dxyn` has drawn its sprite (R166). -/
def State.afterDraw (s : State) (x y n : Nibble) : State :=
  ((s.setFb (s.drawn x y n).1).setReg vf (flagByte (s.drawn x y n).2)).advance

/-- `Dxyn` with its sprite inside memory (R166). -/
theorem exec_drw_of_fits (fits : n.toNat = 0 ∨ s.dataAddr + n.toNat - 1 ≤ 0xFFF) :
    exec (.drw x y n) s = .next (s.afterDraw x y n) := by
  rw [exec, execDrw, State.memRead_eq, if_pos fits, Memory.readRange_eq_map]
  rfl

/-- Every register but `VF` survives a draw (R166). -/
theorem State.reg_afterDraw (s : State) (x y n : Nibble) {r : Nibble} (hr : r ≠ 0xF#4) :
    (s.afterDraw x y n).reg r = s.reg r :=
  (State.reg_setReg _ vf r _).trans (if_neg hr)

/-- After a draw `VF` holds `hit` (R166). -/
theorem State.flag_afterDraw (s : State) (x y n : Nibble) :
    (s.afterDraw x y n).reg 0xF#4 = flagByte (s.drawn x y n).2 :=
  (State.reg_setReg _ vf vf _).trans (if_pos rfl)

/-- After a draw `VF` is 1 where the blit hit (R166, R168). -/
theorem State.flag_afterDraw_of_hit (hit : ∃ row col,
    spriteBitAt (s.reg x).toNat (s.reg y).toNat (s.spriteRows n) row col = true ∧
      FrameBuffer.cell s.fb row col = true) : (s.afterDraw x y n).reg 0xF#4 = 1#8 := by
  rw [State.flag_afterDraw, State.drawn, (drawSprite_hit ..).2 hit]; rfl

/-- After a draw `VF` is 0 where the blit did not hit (R166, R168). -/
theorem State.flag_afterDraw_of_no_hit (miss : ¬∃ row col,
    spriteBitAt (s.reg x).toNat (s.reg y).toNat (s.spriteRows n) row col = true ∧
      FrameBuffer.cell s.fb row col = true) : (s.afterDraw x y n).reg 0xF#4 = 0#8 := by
  have noHit : (s.drawn x y n).2 = false := Bool.eq_false_of_not_eq_true (mt (drawSprite_hit ..).1 miss)
  rw [State.flag_afterDraw, noHit]; rfl

/-- Writing `V`, `FB` and `PC` leaves everything else unchanged. -/
theorem State.keepsAllButScreen (s : State) (v : Vector Byte 16) (fb : FrameBuffer) (pc : Word) :
    let t := { s with v := v, fb := fb, pc := pc }
    KeepsMem s t ∧ KeepsIndex s t ∧ KeepsStack s t ∧ KeepsTimers s t ∧ KeepsLatch s t ∧ KeepsInputs s t :=
  ⟨fun _ => rfl, rfl, ⟨rfl, rfl⟩, ⟨rfl, rfl⟩, ⟨rfl, rfl, rfl, rfl, rfl⟩, rfl, rfl, rfl, rfl⟩

/-- Settles O46, by the laws of the blit for a cell and for `hit`. -/
theorem drawXorsTheSprite : Obligations.DrawXorsTheSprite := by
  unfold Obligations.DrawXorsTheSprite
  intro x y n s fits
  refine ⟨decodeWord_encode (i := .drw x y n) rfl, _, exec_drw_of_fits fits, ⟨fun row col _ _ => ?cell,
    State.flag_afterDraw_of_hit, State.flag_afterDraw_of_no_hit⟩, rfl, fun r hr => ?regs, s.keepsAllButScreen _ _ _⟩
  case cell => exact drawSprite_cell _ _ _ _ row col
  case regs => exact s.reg_afterDraw x y n (List.ne_of_not_mem_cons hr)

/-- Settles O48: no sprite bit addresses a cell, so none is XORed and none is hit. -/
theorem drawOffScreenDrawsNothing : Obligations.DrawOffScreenDrawsNothing := by
  unfold Obligations.DrawOffScreenDrawsNothing
  intro x y n s fits off
  refine ⟨_, exec_drw_of_fits fits, drawSprite_offScreen off _ _, State.flag_afterDraw_of_no_hit ?_⟩
  rintro ⟨row, col, hbit, -⟩
  exact Bool.false_ne_true ((spriteBitAt_offScreen off _ row col).symm.trans hbit)

/-- Settles O49: with neither position register `VF`, the second draw is the same blit, which undoes the first. -/
theorem drawTwiceRestoresTheScreen : Obligations.DrawTwiceRestoresTheScreen := by
  unfold Obligations.DrawTwiceRestoresTheScreen
  intro x y n s hx hy fits
  refine ⟨s.afterDraw x y n, _, exec_drw_of_fits fits, exec_drw_of_fits fits, ?_⟩
  calc ((s.afterDraw x y n).drawn x y n).1
    _ = (drawSprite (s.reg x).toNat (s.reg y).toNat (s.spriteRows n) (s.drawn x y n).1).1 := by
      rw [State.drawn, s.reg_afterDraw x y n hx, s.reg_afterDraw x y n hy]; rfl
    _ = s.fb := drawSprite_twice _ _ _ _

/-- Settles O47: the fault of `Dxyn` is due whatever its position is. -/
theorem drawOutOfRangeFaults : Obligations.DrawOutOfRangeFaults := by
  unfold Obligations.DrawOutOfRangeFaults
  intro x y n s hasRows outside
  exact exec_takes_instrFault (i := .drw x y n) (if_pos ⟨hasRows, outside⟩)

/-- Settles O45: the screen written is the dark one. -/
theorem clearTurnsEveryCellOff : Obligations.ClearTurnsEveryCellOff := by
  unfold Obligations.ClearTurnsEveryCellOff
  intro s
  exact ⟨decodeWord_encode (i := .cls) rfl, _, rfl, FrameBuffer.cell_dark, rfl, fun _ _ => rfl,
    s.keepsAllButScreen s.v _ _⟩

end Sys2Proof.Machine
end

section
/-! No instruction but `Dxyn` reads the screen (spec/44_display.md R168): what the others read of a state, and each
operation that branches or recurses, with another screen. Every other write commutes with it by computation. -/

namespace Sys2Proof.Machine

variable (s : State) (f : FrameBuffer)

@[simp] theorem State.dataAddr_setFb : (s.setFb f).dataAddr = s.dataAddr := rfl
@[simp] theorem State.regBlock_setFb (x : Nibble) : (s.setFb f).regBlock x = s.regBlock x := rfl
@[simp] theorem State.memRead_setFb (a n : Nat) : (s.setFb f).memRead a n = s.memRead a n := rfl
@[simp] theorem State.key_setFb (k : Nibble) : (s.setFb f).key k = s.key k := rfl
@[simp] theorem State.lowestKey_setFb : (s.setFb f).lowestKey = s.lowestKey := rfl

theorem State.skipIf_setFb (c : Bool) : (s.setFb f).skipIf c = (s.skipIf c).setFb f := by
  rw [State.skipIf_eq, State.skipIf_eq]; rfl

theorem State.pop_setFb : (s.setFb f).pop = s.pop.map fun p => (p.1, p.2.setFb f) := by
  cases hp : s.pop with
  | none => exact (State.pop_none (s := s.setFb f)).2 (State.pop_none (s := s).1 hp)
  | some p =>
    obtain ⟨a, t⟩ := p
    obtain ⟨hs, hb, rfl, rfl⟩ := State.pop_some hp
    exact State.pop_of_sp (k := ⟨s.sp.val - 1, hb⟩) (Nat.sub_add_cancel hs).symm

theorem State.push_setFb (w : Word) : (s.setFb f).push w = (s.push w).map (·.setFb f) := by
  rw [State.push, State.push, apply_dite (Option.map _)]; rfl

theorem State.memWrite_setFb (a : Nat) (bs : List Byte) :
    (s.setFb f).memWrite a bs = (s.memWrite a bs).map (·.setFb f) := by
  rw [State.memWrite_eq, State.memWrite_eq, apply_ite (Option.map _)]; rfl

theorem State.setRegsFrom_setFb (k : Nat) (bs : List Byte) :
    (s.setFb f).setRegsFrom k bs = (s.setRegsFrom k bs).setFb f := by
  induction bs generalizing s k with
  | nil => rfl
  | cons b bs ih => exact ih (s.setReg (BitVec.ofNat 4 k) b) (k + 1)

/-- Applies `g` to the next state of an outcome. -/
def mapNext (g : State → State) : Result → Result
  | .next s => .next (g s)
  | .fault r => .fault r
  | .refused r => .refused r

/-- Every instruction but `00E0` and `Dxyn` commutes with putting another screen in place (R168): where it
branches, both states take the same branch. -/
theorem exec_setFb {i : Instr} (ncls : i ≠ .cls) (ndrw : ∀ x y n, i ≠ .drw x y n) :
    exec i (s.setFb f) = mapNext (·.setFb f) (exec i s) := by
  cases i
  case cls => exact absurd rfl ncls
  case drw x y n => exact absurd rfl (ndrw x y n)
  case ret =>
    rw [exec, exec, execRet, execRet, State.pop_setFb]
    cases s.pop <;> rfl
  case call nnn =>
    rw [exec, exec, execCall, execCall, State.setFb_pc, State.push_setFb]
    cases s.push (s.pc + 2#16) <;> rfl
  case seImm => exact congrArg Host.Outcome.next (s.skipIf_setFb f _)
  case sneImm => exact congrArg Host.Outcome.next (s.skipIf_setFb f _)
  case seReg => exact congrArg Host.Outcome.next (s.skipIf_setFb f _)
  case sneReg => exact congrArg Host.Outcome.next (s.skipIf_setFb f _)
  case skp x =>
    simp only [exec, execSkp, State.reg_setFb, State.key_setFb, State.skipIf_setFb]
    cases keyIndex (s.reg x) <;> rfl
  case sknp x =>
    simp only [exec, execSknp, State.reg_setFb, State.key_setFb, State.skipIf_setFb]
    cases keyIndex (s.reg x) <;> rfl
  case ldVxK x =>
    rw [exec, exec, execLdVxK, execLdVxK, State.lowestKey_setFb]
    cases s.lowestKey <;> rfl
  case ldB x =>
    rw [exec, exec, execLdB, execLdB, State.dataAddr_setFb, State.reg_setFb, State.memWrite_setFb]
    cases s.memWrite s.dataAddr (decimalDigits (s.reg x)) <;> rfl
  case ldMemVx x =>
    rw [exec, exec, execLdMemVx, execLdMemVx, State.dataAddr_setFb, State.regBlock_setFb, State.memWrite_setFb]
    cases s.memWrite s.dataAddr (s.regBlock x) <;> rfl
  case ldVxMem x =>
    simp only [exec, execLdVxMem, State.dataAddr_setFb, State.memRead_setFb, State.setRegsFrom_setFb]
    cases s.memRead s.dataAddr (x.toNat + 1) <;> rfl
  all_goals rfl

/-- Settles O59: the instruction on the other screen ends in the same state with the other screen. -/
theorem screenFeedsBackOnlyIntoDraw : Obligations.ScreenFeedsBackOnlyIntoDraw := by
  unfold Obligations.ScreenFeedsBackOnlyIntoDraw
  intro i s t f ncls ndrw h
  rw [exec_setFb s f ncls ndrw, h]; rfl

end Sys2Proof.Machine
end

section
/-! The keypad and timer instructions (spec/45_keypad_timers.md R175 to R181): a byte as a key index and the end of
a cycle first, then the instructions one by one. -/

namespace Sys2Proof.Machine

variable {s : State} {x k : Nibble}

/-- A byte with the number of a key is the index of that key (R181). -/
theorem keyIndex_of_toNat {a : Byte} (h : a.toNat = k.toNat) : keyIndex a = some k := by
  have same : a.setWidth 4 = k := by
    apply BitVec.eq_of_toNat_eq
    rw [BitVec.toNat_setWidth, h, Nat.mod_eq_of_lt k.isLt]
  rw [keyIndex_eq, if_pos (by omega), same]

/-- A key index keeps its number as a byte (R177). -/
theorem keyByte_toNat (k : Nibble) : (keyByte k).toNat = k.toNat :=
  BitVec.toNat_setWidth_of_le (by decide)

/-- `Ex9E` on a key (R175). -/
theorem exec_skp_of_key (h : (s.reg x).toNat = k.toNat) : exec (.skp x) s = .next (s.skipIf (s.key k)) := by
  rw [exec, execSkp, keyIndex_of_toNat h]

/-- `ExA1` on a key (R176). -/
theorem exec_sknp_of_key (h : (s.reg x).toNat = k.toNat) : exec (.sknp x) s = .next (s.skipIf (!s.key k)) := by
  rw [exec, execSknp, keyIndex_of_toNat h]

/-- `PC` after a skip on a failed test (R94, R176). -/
theorem State.skipIf_not_pc (s : State) (c : Bool) :
    (s.skipIf (!c)).pc = if c = true then s.pc + 2#16 else s.pc + 4#16 := by
  have failed : (!c) = true ↔ ¬c = true := by simp
  exact (State.skipIf_pc failed).trans (ite_not ..)

/-- `Fx0A` with no key pressed suspends (R177). -/
theorem exec_ldVxK_of_no_key (h : ∀ k, s.key k = false) (x : Nibble) : exec (.ldVxK x) s = .next s := by
  rw [exec, execLdVxK, State.lowestKey_none.2 h]; rfl

/-- `Fx0A` stores the lowest key pressed (R177, D7). -/
theorem exec_ldVxK_of_lowest (pressed : s.key k = true) (lowest : ∀ j : Nibble, j.toNat < k.toNat → s.key j = false)
    (x : Nibble) : exec (.ldVxK x) s = .next (s.setReg x (keyByte k)).advance := by
  rw [exec, execLdVxK, State.lowestKey_some.2 ⟨pressed, lowest⟩]

/-- The end of a cycle writes no general register (R98, R206). -/
@[simp] theorem State.reg_finishCycle (s : State) (r : Nibble) : s.finishCycle.reg r = s.reg r := by
  obtain ⟨_, _, _, h⟩ := s.finishCycle_only_timers
  rw [h]; rfl

/-- The timers and `BEEP` at the end of a cycle that did not fault, at either level of `timer_en` (R98, R206, R207). -/
theorem State.finishCycle_timers (running : s.halt = false) :
    s.finishCycle.dt.toNat = s.dt.toNat - (if s.timerEn then 1 else 0) ∧
      s.finishCycle.st.toNat = s.st.toNat - (if s.timerEn then 1 else 0) ∧
      (s.finishCycle.beep = true ↔ s.timerEn = true ∧ s.st.toNat > 0) := by
  cases en : s.timerEn with
  | true =>
    rw [State.finishCycle_of_timers running en]
    have beep : s.timerPhase.beep = true ↔ s.st.toNat > 0 := by
      rw [State.timerPhase_beep, bne_iff_ne, ← BitVec.toNat_ne_iff_ne]
      exact Nat.pos_iff_ne_zero.symm
    exact ⟨countDown_toNat s.dt, countDown_toNat s.st, beep.trans (and_iff_right rfl).symm⟩
  | false =>
    rw [State.finishCycle_of_no_timers running en]
    exact ⟨rfl, rfl, by simp⟩

/-- Writing the timers and `PC` leaves everything else unchanged. -/
theorem State.keepsAllButTimers (s : State) (dt st : Byte) (pc : Word) :
    let t := { s with dt := dt, st := st, pc := pc }
    KeepsRegsBut [] s t ∧ KeepsMem s t ∧ KeepsIndex s t ∧ KeepsStack s t ∧ KeepsScreen s t ∧
      KeepsLatch s t ∧ KeepsInputs s t :=
  ⟨fun _ _ => rfl, fun _ => rfl, rfl, ⟨rfl, rfl⟩, rfl, ⟨rfl, rfl, rfl, rfl, rfl⟩, rfl, rfl, rfl, rfl⟩

/-- Settles O50: the key that `V[x]` names decides the skip. -/
theorem skipOnKey : Obligations.SkipOnKey := by
  unfold Obligations.SkipOnKey
  intro x k s h
  constructor
  · exact ⟨decodeWord_encode (i := .skp x) rfl, _, exec_skp_of_key h, State.skipIf_pc Iff.rfl, s.onlyRegs_skipIf _⟩
  · exact ⟨decodeWord_encode (i := .sknp x) rfl, _, exec_sknp_of_key h, s.skipIf_not_pc _, s.onlyRegs_skipIf _⟩

/-- Settles O51: the fault of either instruction is due. -/
theorem keyIndexAboveFifteenFaults : Obligations.KeyIndexAboveFifteenFaults := by
  unfold Obligations.KeyIndexAboveFifteenFaults
  intro x s above
  constructor
  · exact exec_takes_instrFault (i := .skp x) (if_pos above)
  · exact exec_takes_instrFault (i := .sknp x) (if_pos above)

/-- Settles O52: the key search finds none, or the lowest one pressed, whose index is written to one register. -/
theorem keyWaitSuspendsOrStores : Obligations.KeyWaitSuspendsOrStores := by
  unfold Obligations.KeyWaitSuspendsOrStores
  intro x s
  refine ⟨decodeWord_encode (i := .ldVxK x) rfl, fun noKey => exec_ldVxK_of_no_key noKey x,
    fun k pressed lowest => ?_⟩
  refine ⟨_, exec_ldVxK_of_lowest pressed lowest x, ?_, rfl, s.onlyRegs_setReg x _⟩
  rw [State.reg_setReg_advance, keyByte_toNat]

/-- Settles O53: one register is written, which the end of the cycle leaves alone while it counts `DT` down. -/
theorem readDelayTimer : Obligations.ReadDelayTimer := by
  unfold Obligations.ReadDelayTimer
  intro x s
  have read : (s.setReg x s.dt).advance.reg x = s.dt := s.reg_setReg_advance x _
  refine ⟨decodeWord_encode (i := .ldVxDt x) rfl, _, rfl, read, rfl, s.onlyRegs_setReg x _, fun running => ?_⟩
  obtain ⟨dt, -, -⟩ := State.finishCycle_timers (s := (s.setReg x s.dt).advance) running
  exact ⟨(State.reg_finishCycle _ x).trans read, dt⟩

/-- Settles O54: one timer is written, and the end of the cycle counts the new value down. -/
theorem setTimersThenTick : Obligations.SetTimersThenTick := by
  unfold Obligations.SetTimersThenTick
  intro x s
  constructor
  · obtain ⟨regs, mem, index, stack, screen, latch, inputs⟩ := s.keepsAllButTimers (s.reg x) s.st (s.pc + 2#16)
    refine ⟨decodeWord_encode (i := .ldDtVx x) rfl, _, rfl, rfl, rfl, rfl, regs, mem, index, stack, screen, latch,
      inputs, fun running => ?_⟩
    obtain ⟨dt, -, -⟩ := State.finishCycle_timers (s := (s.setDt (s.reg x)).advance) running
    exact dt
  · obtain ⟨regs, mem, index, stack, screen, latch, inputs⟩ := s.keepsAllButTimers s.dt (s.reg x) (s.pc + 2#16)
    refine ⟨decodeWord_encode (i := .ldStVx x) rfl, _, rfl, rfl, rfl, rfl, regs, mem, index, stack, screen, latch,
      inputs, fun running => ?_⟩
    obtain ⟨-, st⟩ := State.finishCycle_timers (s := (s.setSt (s.reg x)).advance) running
    exact st

end Sys2Proof.Machine
end

section
/-! The timer phase at the end of a cycle, and when an instruction and a cycle fault (spec/60_exceptions.md R190 to
R199, R206, R207). -/

namespace Sys2Proof.Machine

variable {s t u : State} {i : Instr}

/-- The end of a cycle that did not fault leaves everything but the timers, `BEEP` and the inputs as it was, `HALT`
at 0 among it (R98, R206). -/
theorem State.finishCycle_frame (running : u.halt = false) :
    let t := u.finishCycle
    t.pc = u.pc ∧ KeepsRegsBut [] u t ∧ t.mem = u.mem ∧ KeepsIndex u t ∧ KeepsStack u t ∧ KeepsScreen u t ∧
      t.keys = u.keys ∧ t.timerEn = u.timerEn ∧ t.halt = false ∧ t.fkind = u.fkind ∧ t.fword = u.fword ∧
      t.fpc = u.fpc := by
  obtain ⟨_, _, _, h⟩ := u.finishCycle_only_timers
  rw [h]
  exact ⟨rfl, fun _ _ => rfl, rfl, rfl, ⟨rfl, rfl⟩, rfl, rfl, rfl, running, rfl, rfl, rfl⟩

/-- An instruction that left `HALT` at 0 took no fault, so it completed with its effect. -/
theorem effect_of_running (he : exec i s = .next u) (running : u.halt = false) : Effect s i u := by
  obtain ⟨k, -, rfl⟩ | ⟨-, e⟩ := exec_cases he
  · cases running
  · exact e

/-- Settles O9: the cycle ends with the timer phase at the level of `timer_en` that the instruction left as it
was. -/
theorem timerPhaseAfterTheInstruction : Obligations.TimerPhaseAfterTheInstruction := by
  unfold Obligations.TimerPhaseAfterTheInstruction
  intro s u i running inside hd he running'
  obtain ⟨-, timerEn, -, -⟩ := (effect_of_running he running').keepsInputs
  have ends := step_of_fetchInstr running (State.fetchInstr_of_decodeWord inside hd) he
  have frame := State.finishCycle_frame running'
  refine ⟨_, ends, fun en => ?_, fun en => ?_, timerEn ▸ frame⟩
  · simpa [timerEn, en] using State.finishCycle_timers running'
  · rw [State.finishCycle_of_no_timers running' (timerEn.trans en)]
    exact ⟨⟨rfl, rfl⟩, rfl⟩

/-- Settles O11, by the ways a cycle that is not halted can go: the fault that is due is taken, or none is due and
neither the instruction nor the end of the cycle touches the latch. -/
theorem cycleFaultsExactlyWhenDue : Obligations.CycleFaultsExactlyWhenDue := by
  unfold Obligations.CycleFaultsExactlyWhenDue
  intro s running
  cases due : s.faultDue with
  | some f =>
    obtain ⟨t, hs, took⟩ := step_of_faultDue running due
    exact ⟨t, hs, fun _ e => Option.some.inj e ▸ took, nofun⟩
  | none =>
    obtain ⟨t, hs, c⟩ := step_cycle s
    refine ⟨t, hs, nofun, fun _ => ?_⟩
    cases c with
    | halted h => cases running.symm.trans h
    | faulted _ due' => cases due.symm.trans due'
    | completed _ _ _ e =>
      obtain ⟨halt, fkind, fword, fpc, -⟩ := e.keepsLatch
      obtain ⟨_, _, _, h⟩ := State.finishCycle_only_timers _
      rw [h]
      exact ⟨halt.trans running, fkind, fword, fpc⟩

/-- Settles O12: the fault of the word is the instruction's own, which is raised; without one its effect leaves the
latch alone. -/
theorem instructionFaultsExactlyWhenItsWordDoes : Obligations.InstructionFaultsExactlyWhenItsWordDoes := by
  unfold Obligations.InstructionFaultsExactlyWhenItsWordDoes
  intro i s wf
  rw [faultOfWord_encode s wf]
  obtain ⟨k, hk, he⟩ | ⟨noFault, t, he, e⟩ := hasOutcome s i
  · rw [hk]
    refine ⟨_, he, ⟨rfl, rfl, rfl, rfl⟩, ?_, ?_, ?_, ?_, ?_, nofun⟩
    · rintro _ ⟨⟩; exact s.tookFault_raise k i
    all_goals rintro ⟨⟩; rfl
  · rw [noFault]
    exact ⟨t, he, e.keepsInputs, nofun, nofun, nofun, nofun, nofun, fun _ => e.keepsLatch⟩

end Sys2Proof.Machine
end

section
/-! The host's ports (spec/60_exceptions.md R209, spec/70_reset_and_hazards.md R230, R232): the keys after `set_key`,
and the invariant after every move. -/

namespace Sys2Proof.Machine

variable {s t : State}

/-- A key read after `set_key` (R209). -/
@[simp] theorem State.key_setKey (s : State) (k j : Nibble) (b : Bool) :
    (s.setKey k b).key j = if j = k then b else s.key j := by
  simp only [State.key, State.setKey_keys, Vector.getElem_set, Nibble.toNat_inj, eq_comm]

/-- Settles O22: one slot of `KEYS` is written, and no other field. -/
theorem setKeyWritesOneFlag : Obligations.SetKeyWritesOneFlag := by
  unfold Obligations.SetKeyWritesOneFlag
  exact fun s k b => ⟨fun j => s.key_setKey k j b, rfl⟩

/-- What `load` answers when the image fits (R232). -/
theorem State.load_ok {image : List Byte} (h : s.load image = .ok t) :
    image.length ≤ Config.maxProg ∧ t = s.setMem (Memory.writeRange s.mem Config.progBase image) := by
  unfold State.load at h
  split at h
  · cases h
  · next fits => exact ⟨Nat.not_lt.1 fits, (Except.ok.inj h).symm⟩

/-- The invariant speaks of no key (R209, D17). -/
theorem State.inv_setKey (k : Nibble) (b : Bool) (inv : s.Inv) : (s.setKey k b).Inv := inv

/-- The invariant speaks of no input. -/
theorem State.inv_withInputs (r : Byte) (e : Bool) (inv : s.Inv) : (s.withInputs r e).Inv := inv

/-- `reset` with any font sets up the invariant: the 80 bytes are stored into the memory of reset (R230). -/
theorem State.inv_resetPort (s : State) (font : Vector Byte 80) : (s.resetPort font).Inv := by
  have fits : 0 + font.toList.length ≤ Config.memSize := by rw [Vector.length_toList]; decide
  exact State.inv_of_running (Memory.writeRange_wf _ _ _ Memory.reset_wf fits) rfl ⟨rfl, rfl, rfl⟩

/-- `load` keeps the invariant of an engine that is not halted: an image that fits ends inside memory (R232). -/
theorem State.inv_load {image : List Byte} (inv : s.Inv) (running : s.halt = false) (h : s.load image = .ok t) :
    t.Inv := by
  obtain ⟨mem, clear, -⟩ := inv
  obtain ⟨fits, rfl⟩ := State.load_ok h
  have inside : Config.progBase + image.length ≤ Config.memSize := Nat.add_le_add_left fits _
  exact State.inv_of_running (Memory.writeRange_wf _ _ _ mem inside) running (clear running)

/-- Settles O16, port by port. -/
theorem portsKeepInvariant : Obligations.PortsKeepInvariant := by
  unfold Obligations.PortsKeepInvariant
  exact ⟨fun _ k b => State.inv_setKey k b, fun _ r e => State.inv_withInputs r e, State.inv_resetPort,
    fun _ _ _ => State.inv_load⟩

end Sys2Proof.Machine
end

section
/-! No instruction but `Cxkk` reads the random input (spec/60_exceptions.md R211). As with another screen: each
operation that branches or recurses commutes with another input, every other one by computation. -/

namespace Sys2Proof.Machine

variable (s : State) (r : Option Byte) (c : Nat)

/-- `s` with `r` presented on `rnd` and its free values counted from `c` (R100, log entry 1). -/
def State.setRnd : State := { s with rndIn := r, cycle := c }

@[simp] theorem State.pc_setRnd : (s.setRnd r c).pc = s.pc := rfl
@[simp] theorem State.reg_setRnd (x : Nibble) : (s.setRnd r c).reg x = s.reg x := rfl
@[simp] theorem State.dataAddr_setRnd : (s.setRnd r c).dataAddr = s.dataAddr := rfl
@[simp] theorem State.regBlock_setRnd (x : Nibble) : (s.setRnd r c).regBlock x = s.regBlock x := rfl
@[simp] theorem State.memRead_setRnd (a n : Nat) : (s.setRnd r c).memRead a n = s.memRead a n := rfl
@[simp] theorem State.key_setRnd (k : Nibble) : (s.setRnd r c).key k = s.key k := rfl
@[simp] theorem State.lowestKey_setRnd : (s.setRnd r c).lowestKey = s.lowestKey := rfl

theorem State.skipIf_setRnd (b : Bool) : (s.setRnd r c).skipIf b = (s.skipIf b).setRnd r c := by
  rw [State.skipIf_eq, State.skipIf_eq]; rfl

theorem State.pop_setRnd : (s.setRnd r c).pop = s.pop.map fun p => (p.1, p.2.setRnd r c) := by
  cases s with
  | mk _ _ _ sp => obtain ⟨_ | k, h⟩ := sp <;> rfl

theorem State.push_setRnd (w : Word) : (s.setRnd r c).push w = (s.push w).map (·.setRnd r c) := by
  rw [State.push, State.push, apply_dite (Option.map _)]; rfl

theorem State.memWrite_setRnd (a : Nat) (bs : List Byte) :
    (s.setRnd r c).memWrite a bs = (s.memWrite a bs).map (·.setRnd r c) := by
  rw [State.memWrite_eq, State.memWrite_eq, apply_ite (Option.map _)]; rfl

theorem State.setRegsFrom_setRnd (k : Nat) (bs : List Byte) :
    (s.setRnd r c).setRegsFrom k bs = (s.setRegsFrom k bs).setRnd r c := by
  induction bs generalizing s k with
  | nil => rfl
  | cons b bs ih => exact ih (s.setReg (BitVec.ofNat 4 k) b) (k + 1)

/-- Every instruction but `Cxkk` commutes with putting another random input in place (R211): where it branches,
both states take the same branch. -/
theorem exec_setRnd {i : Instr} (nrnd : ∀ x kk, i ≠ .rnd x kk) :
    exec i (s.setRnd r c) = mapNext (·.setRnd r c) (exec i s) := by
  cases i
  case rnd x kk => exact absurd rfl (nrnd x kk)
  case seImm | sneImm | seReg | sneReg => exact congrArg Host.Outcome.next (s.skipIf_setRnd r c _)
  case ret =>
    simp only [exec, execRet, State.pop_setRnd]
    cases s.pop <;> rfl
  case call =>
    simp only [exec, execCall, State.pc_setRnd, State.push_setRnd]
    cases s.push (s.pc + 2#16) <;> rfl
  case drw x y n =>
    simp only [exec, execDrw, State.dataAddr_setRnd, State.memRead_setRnd]
    cases s.memRead s.dataAddr n.toNat <;> rfl
  case skp x | sknp x =>
    simp only [exec, execSkp, execSknp, State.reg_setRnd, State.key_setRnd, State.skipIf_setRnd]
    cases keyIndex (s.reg x) <;> rfl
  case ldVxK =>
    simp only [exec, execLdVxK, State.lowestKey_setRnd]
    cases s.lowestKey <;> rfl
  case ldB x =>
    simp only [exec, execLdB, State.dataAddr_setRnd, State.reg_setRnd, State.memWrite_setRnd]
    cases s.memWrite s.dataAddr (decimalDigits (s.reg x)) <;> rfl
  case ldMemVx x =>
    simp only [exec, execLdMemVx, State.dataAddr_setRnd, State.regBlock_setRnd, State.memWrite_setRnd]
    cases s.memWrite s.dataAddr (s.regBlock x) <;> rfl
  case ldVxMem x =>
    simp only [exec, execLdVxMem, State.dataAddr_setRnd, State.memRead_setRnd, State.setRegsFrom_setRnd]
    cases s.memRead s.dataAddr (x.toNat + 1) <;> rfl
  all_goals rfl

/-- Settles O58: the instruction with the other random input ends in the same state with the other input. -/
theorem randomInputReachesOnlyRnd : Obligations.RandomInputReachesOnlyRnd := by
  unfold Obligations.RandomInputReachesOnlyRnd
  intro i s t r c nrnd h
  exact (exec_setRnd s r c nrnd).trans (congrArg (mapNext _) h)

end Sys2Proof.Machine
end

section
/-! Reset, load and the life they begin (spec/70_reset_and_hazards.md R230 to R234): what a byte reads as after the
`reset` input, what `load` answers on both sides of 3584 bytes, and the invariant along every life. -/

namespace Sys2Proof.Machine

variable {s t : State}

/-- Every register is zero after reset (R231). -/
@[simp] theorem State.reg_reset (r : Nibble) : State.reset.reg r = 0#8 := Vector.getElem_replicate r.isLt

/-- Settles O18: `Vector.replicate` gives the registers, and the frame buffer is the dark one. -/
theorem resetEntryState : Obligations.ResetEntryState := by
  unfold Obligations.ResetEntryState
  exact ⟨rfl, rfl, State.reg_reset, rfl, rfl, rfl, FrameBuffer.cell_dark⟩

/-- Below 0x050 a byte is the font's after the `reset` input (R51, R230). -/
theorem State.byteAt_resetPort_font (s : State) (font : Vector Byte 80) {a : Nat} (h : a < 80) :
    (s.resetPort font).byteAt a = font[a] := by
  have inFont : a < font.toList.length := by rwa [Vector.length_toList]
  have stored := Memory.read_writeRange_add State.reset.mem 0 inFont
  rwa [Nat.zero_add, Vector.getElem_toList] at stored

/-- From 0x050 on a byte is zero after the `reset` input: the font does not reach it (R230). -/
theorem State.byteAt_resetPort_above (s : State) (font : Vector Byte 80) {a : Nat} (h : 80 ≤ a) :
    (s.resetPort font).byteAt a = 0#8 := by
  have kept : KeepsMemOutside 0 font.toList.length State.reset (s.resetPort font) :=
    State.keepsMemOutside_writeRange rfl
  have outside : ¬(0 ≤ a ∧ a < 0 + font.toList.length) := by rw [Vector.length_toList]; omega
  exact (kept a outside).trans (Memory.base_above a h)

/-- Settles O20: memory byte by byte and by the invariant that `reset` sets up, every other field by the definition
of the port. -/
theorem resetPortClearsEverything : Obligations.ResetPortClearsEverything := by
  unfold Obligations.ResetPortClearsEverything
  intro s font
  obtain ⟨memWf, -, -⟩ := s.inv_resetPort font
  exact ⟨fun _ => s.byteAt_resetPort_font font, fun _ => s.byteAt_resetPort_above font, memWf, rfl⟩

/-- An image of at most 3584 bytes is stored at 0x200 (R232). -/
theorem State.load_of_fits (s : State) {image : List Byte} (fits : image.length ≤ Config.maxProg) :
    s.load image = .ok (s.setMem (Memory.writeRange s.mem Config.progBase image)) :=
  if_neg (Nat.not_lt.2 fits)

/-- A longer image is refused on its length alone (R233). -/
theorem State.load_of_tooLarge (s : State) {image : List Byte} (tooLarge : image.length > Config.maxProg) :
    s.load image = .error .programTooLarge :=
  if_pos tooLarge

/-- Settles O21, on the two sides of the bound: the image is one stored run, or nothing is stored. -/
theorem loadCopiesTheImage : Obligations.LoadCopiesTheImage := by
  unfold Obligations.LoadCopiesTheImage
  intro s image
  refine ⟨fun fits => ⟨_, s.load_of_fits fits, fun k h => ?_, ?_, rfl⟩, s.load_of_tooLarge⟩
  · exact Memory.read_writeRange_add s.mem Config.progBase h
  · exact State.keepsMemOutside_writeRange rfl

/-- Every state of a life meets the invariant: `reset` and `load` set it up, and each move keeps it (R234). -/
theorem Reachable.inv (h : Reachable s) : s.Inv := by
  induction h with
  | boot s _ font _ loaded => exact State.inv_load (s.inv_resetPort font) rfl loaded
  | cycle s t _ stepped inv => exact stepKeepsInvariant s t inv stepped
  | inputs _ rnd timerEn _ inv => exact State.inv_withInputs rnd timerEn inv
  | key _ index pressed _ inv => exact State.inv_setKey index pressed inv

/-- Settles O17: the invariant along every life, and a cycle that answers from every state. -/
theorem reachableStatesMeetInvariant : Obligations.ReachableStatesMeetInvariant := by
  unfold Obligations.ReachableStatesMeetInvariant
  intro s reachable
  obtain ⟨t, stepped, -⟩ := step_cycle s
  exact ⟨reachable.inv, t, stepped⟩

end Sys2Proof.Machine
end
